-- ==== Sys2Proof/Word.lean ====
section
/-! DEFINITION. The widths of the block: bytes (R6, R11, R13), 16-bit operands, indices and values (R51, R52), 32-bit
command words (R50). -/

namespace Sys2Proof

/-- One cell of MEM, one entry of TABLE, the register CRC, the operand of format B (R6, R11, R12, R13, R51). -/
abbrev Byte := BitVec 8

/-- FIRST, COUNT, the field `ARG` and a response's `val` (R14, R15, R50, R52). -/
abbrev Half := BitVec 16

/-- A command word: a number with numbered bit fields, not a byte string (R50). -/
abbrev Word := BitVec 32

end Sys2Proof
end

