-- ==== Sys2Proof/Config.lean ====
section
/-! DEFINITION. What an implementation fixes (R5, R7, R8: the configuration record, with its default) and the free values: the open
parameters and the unspecified byte (R20, U1). -/

namespace Sys2Proof

/-- The port a command is presented on: `P`, the producer's (the receive-interrupt handler), or `C`, the consumer's (the
main loop) (R9, R58). -/
inductive Port where
  | P
  | C
deriving DecidableEq, Repr, Inhabited

/-- The values of the parameter `PRODUCER_PUSH` (R7): `pushd` is RB.PUSHD (drop when full), the default, and `push` is RB.PUSH
(reject when full). -/
inductive PushVariant where
  | pushd
  | push
deriving DecidableEq, Repr, Inhabited

/-- The parameters a model takes as a configuration record (R5, R7, R8). `N = nPred + 1`, so that every value of the
record has `1 <= N <= 65535`. "The default is therefore `RB.PUSHD`" (R7). -/
structure Parameters where
  nPred        : Fin 65535
  producerPush : PushVariant := .pushd
  ieReset      : Bool
deriving DecidableEq, Repr, Inhabited

/-- `N`, the capacity of the ring buffer in elements (R5). -/
def Parameters.N (p : Parameters) : Nat := p.nPred.val + 1

/-- `N - 1` of the block that `State.reset` is the reset state of. `N` is OPEN (R5), so nothing in Lean knows the value. DESIGN
CHOICE, log 4; safe. -/
opaque Config.nPred : Fin 65535

/-- `IE_RESET` of that block: OPEN (R8), so nothing in Lean knows the value. DESIGN CHOICE, log 4; safe. -/
opaque Config.ieReset : Bool

/-- The parameters of that block: the two open ones, and PRODUCER_PUSH at its default, RB.PUSHD (R7). -/
def Config.parameters : Parameters where
  nPred   := Config.nPred
  ieReset := Config.ieReset

/-- The byte a cell of MEM holds that nothing has written since the last reset event: "unspecified" (R20), "any value" (U1).
The first argument counts the reset events, the second is the cell's physical index. A free value: DESIGN CHOICE, log 5;
safe. -/
opaque Config.unspecifiedByte : Nat → Nat → Byte

end Sys2Proof
end

