-- ==== Sys2Proof/Syntax.lean ====
section
/-! DEFINITION. The twelve operations of the opcode map (R54), one constructor per row of spec/opcode_table.json. -/

namespace Sys2Proof

/-- An operation with its operand. The operand's type is its field of `ARG` (R51): a byte for format B, 16 bits for format
I, one bit for format F. -/
inductive Instr where
  | crcClr
  | crcLd (v : Byte)
  | crcUpd (b : Byte)
  | crcRd
  | rbPush (v : Byte)
  | rbPushd (v : Byte)
  | rbPop
  | rbPeek (i : Half)
  | rbPeekf (k : Half)
  | rbLen
  | csEnter
  | csExit (s : Bool)
deriving DecidableEq, Repr

end Sys2Proof
end

