-- ==== Sys2Proof/WellFormed.lean ====
section
/-! DEFINITION. The four operand formats (R51), and the checks on an operand and on an assembler line (R59): an unknown
mnemonic, a missing or extra operand, and "an operand out of range cannot be assembled". -/

namespace Sys2Proof

/-- How an operation uses `ARG` (R51). -/
inductive Format where
  | Z
  | B
  | I
  | F
deriving DecidableEq, Repr

/-- The format of each operation (R54). -/
def Instr.format : Instr → Format
  | .crcClr => .Z
  | .crcLd _ => .B
  | .crcUpd _ => .B
  | .crcRd => .Z
  | .rbPush _ => .B
  | .rbPushd _ => .B
  | .rbPop => .Z
  | .rbPeek _ => .I
  | .rbPeekf _ => .I
  | .rbLen => .Z
  | .csEnter => .Z
  | .csExit _ => .F

/-- The operand of an operation as an unsigned number, if it has one (R51). -/
def Instr.operand : Instr → Option Nat
  | .crcClr => none
  | .crcLd v => some v.toNat
  | .crcUpd b => some b.toNat
  | .crcRd => none
  | .rbPush v => some v.toNat
  | .rbPushd v => some v.toNat
  | .rbPop => none
  | .rbPeek i => some i.toNat
  | .rbPeekf k => some k.toNat
  | .rbLen => none
  | .csEnter => none
  | .csExit s => some s.toNat

/-- An operand fits a format: none for Z, 0 to 255 for B, 0 to 65535 for I, 0 or 1 for F (R51, R59). -/
def operandFits : Format → Option Nat → Bool
  | .Z, none => true
  | .Z, some _ => false
  | .B, none => false
  | .B, some n => n < 256
  | .I, none => false
  | .I, some n => n < 65536
  | .F, none => false
  | .F, some n => n < 2

/-- Every operation's operand fits its format. The operand types say so already: `wellFormed_all`. -/
def Instr.wellFormed (i : Instr) : Bool := operandFits i.format i.operand

/-- An assembler line as written (R59): the port prefix if any, the mnemonic, the operand if any. -/
structure Line where
  port     : Option Port
  mnemonic : String
  operand  : Option Nat
deriving DecidableEq, Repr

/-- The mnemonics and their formats (R54). -/
def mnemonicFormats : List (String × Format) :=
  [("CRC.CLR", .Z), ("CRC.LD", .B), ("CRC.UPD", .B), ("CRC.RD", .Z), ("RB.PUSH", .B), ("RB.PUSHD", .B),
   ("RB.POP", .Z), ("RB.PEEK", .I), ("RB.PEEKF", .I), ("RB.LEN", .Z), ("CS.ENTER", .Z), ("CS.EXIT", .F)]

/-- A line can be assembled: its mnemonic is one of the twelve and its operand fits the format (R59). -/
def Line.wellFormed (l : Line) : Bool :=
  match mnemonicFormats.lookup l.mnemonic with
  | none => false
  | some f => operandFits f l.operand

end Sys2Proof
end

