-- ==== Sys2Proof/Decode.lean ====
section
/-! DEFINITION. The command word (R50), the opcode map (R54), the decoder (R55, R56), which port admits what (R58), the encoder,
and the assembling of a line (R59). -/

namespace Sys2Proof

/-- `OPC`, bits 31:24 of a command word (R50). -/
def wordOPC (w : Word) : Byte := w.extractLsb' 24 8

/-- `MBZ`, bits 23:16 of a command word (R50). -/
def wordMBZ (w : Word) : Byte := w.extractLsb' 16 8

/-- `ARG`, bits 15:0 of a command word (R50). -/
def wordARG (w : Word) : Half := w.extractLsb' 0 16

/-- `ARG[7:0]`, the operand of format B (R51). -/
def argByte (a : Half) : Byte := a.extractLsb' 0 8

/-- `ARG[0]`, the operand of format F (R51). -/
def argFlag (a : Half) : Bool := a.getLsbD 0

/-- One row of the opcode map (R54): `pattern` is the rule's `match`, the command word with a zero operand; `build` takes
the operand from `ARG` according to the row's format (R51). -/
structure Row where
  mnemonic : String
  opc      : Byte
  format   : Format
  pattern  : Word
  mask     : Word
  build    : Half → Instr

/-- The opcode map (R54). -/
def opcodeMap : List Row :=
  [⟨"CRC.CLR",  0x10, .Z, 0x10000000, 0xFFFFFFFF, fun _ => .crcClr⟩,
   ⟨"CRC.LD",   0x11, .B, 0x11000000, 0xFFFFFF00, fun a => .crcLd (argByte a)⟩,
   ⟨"CRC.UPD",  0x12, .B, 0x12000000, 0xFFFFFF00, fun a => .crcUpd (argByte a)⟩,
   ⟨"CRC.RD",   0x13, .Z, 0x13000000, 0xFFFFFFFF, fun _ => .crcRd⟩,
   ⟨"RB.PUSH",  0x20, .B, 0x20000000, 0xFFFFFF00, fun a => .rbPush (argByte a)⟩,
   ⟨"RB.PUSHD", 0x21, .B, 0x21000000, 0xFFFFFF00, fun a => .rbPushd (argByte a)⟩,
   ⟨"RB.POP",   0x22, .Z, 0x22000000, 0xFFFFFFFF, fun _ => .rbPop⟩,
   ⟨"RB.PEEK",  0x23, .I, 0x23000000, 0xFFFF0000, fun a => .rbPeek a⟩,
   ⟨"RB.PEEKF", 0x24, .I, 0x24000000, 0xFFFF0000, fun a => .rbPeekf a⟩,
   ⟨"RB.LEN",   0x25, .Z, 0x25000000, 0xFFFFFFFF, fun _ => .rbLen⟩,
   ⟨"CS.ENTER", 0x30, .Z, 0x30000000, 0xFFFFFFFF, fun _ => .csEnter⟩,
   ⟨"CS.EXIT",  0x31, .F, 0x31000000, 0xFFFFFFFE, fun a => .csExit (argFlag a)⟩]

/-- A word selects a row when `cmd & mask == match` (R54). -/
def Row.selects (r : Row) (w : Word) : Bool := w &&& r.mask == r.pattern

/-- Why a word matches no row (R56). The three names are the model's; all three answer the same response (log 16). -/
inductive DecodeError where
  /-- Raised by `decode`: no row has this `OPC`; safe, the block answers ILLEGAL (R56). -/
  | unusedOpcode (opc : Byte)
  /-- Raised by `decode`: the `MBZ` field is not zero; safe, the block answers ILLEGAL (R56). -/
  | mbzNotZero
  /-- Raised by `decode`: a must-be-zero bit of `ARG` is set; safe, the block answers ILLEGAL (R56). -/
  | argNotZero
deriving DecidableEq, Repr

/-- The name of the reason a word that matches no row is illegal (R56). -/
def illegalReason (w : Word) : DecodeError :=
  if opcodeMap.any (fun r => r.opc == wordOPC w) then
    if wordMBZ w == 0 then .argNotZero else .mbzNotZero
  else .unusedOpcode (wordOPC w)

/-- The decoder (R55): the row the word selects, with its operand taken from `ARG`. It depends on the word alone. -/
def decode (w : Word) : Except DecodeError Instr :=
  match opcodeMap.find? (fun r => r.selects w) with
  | some r => .ok (r.build (wordARG w))
  | none => .error (illegalReason w)

/-- Port P admits the two pushes (R58). -/
def Instr.admittedOnP : Instr → Bool
  | .crcClr => false
  | .crcLd _ => false
  | .crcUpd _ => false
  | .crcRd => false
  | .rbPush _ => true
  | .rbPushd _ => true
  | .rbPop => false
  | .rbPeek _ => false
  | .rbPeekf _ => false
  | .rbLen => false
  | .csEnter => false
  | .csExit _ => false

/-- Admission by port (R58): all twelve operations on C, the two pushes on P. -/
def admits : Port → Instr → Bool
  | .P, i => i.admittedOnP
  | .C, _ => true

/-- The command word of an operation (R54, and the encoding line of R77 to R80, R93 to R103, R122, R123). -/
def encode : Instr → Word
  | .crcClr => 0x10000000
  | .crcLd v => 0x11000000 ||| v.setWidth 32
  | .crcUpd b => 0x12000000 ||| b.setWidth 32
  | .crcRd => 0x13000000
  | .rbPush v => 0x20000000 ||| v.setWidth 32
  | .rbPushd v => 0x21000000 ||| v.setWidth 32
  | .rbPop => 0x22000000
  | .rbPeek i => 0x23000000 ||| i.setWidth 32
  | .rbPeekf k => 0x24000000 ||| k.setWidth 32
  | .rbLen => 0x25000000
  | .csEnter => 0x30000000
  | .csExit s => 0x31000000 ||| (BitVec.ofBool s).setWidth 32

/-- The command a line assembles to, on the port it names, C if it names none (R59). -/
def assemble (l : Line) : Option (Port × Word) :=
  if l.wellFormed then
    (opcodeMap.find? (fun r => r.mnemonic == l.mnemonic)).map fun r =>
      (l.port.getD .C, encode (r.build (BitVec.ofNat 16 (l.operand.getD 0))))
  else none

/-- The instruction the decoder reads from the word whose bits are `w`, bit 0 the least significant; bits from `nbits` up are
0. Every row of the table has 32 bits (log 10). -/
def decodeTableWord (nbits w : Nat) : Option Instr :=
  if w % 2 ^ nbits < 2 ^ 32 then
    match decode (BitVec.ofNat 32 (w % 2 ^ nbits)) with
    | .ok i => some i
    | .error _ => none
  else none

end Sys2Proof
end

