-- ==== Sys2Proof/Machine/State.lean ====
section
/-! DEFINITION. The state of the block (R10), its interface (R9, R50, R52, R135, R150), the reset state (R19, R20, R150), and the
reasons a step can stop (none in this block: R130). -/

namespace Sys2Proof.Machine

/-- The status codes a response can carry (R53); 5, 6 and 7 are never returned (U12). -/
inductive Status where
  | ok
  | full
  | empty
  | range
  | illegal
deriving DecidableEq, Repr

/-- A response (R52). `data` is the burst of RB.PEEKF, oldest byte first. -/
structure Response where
  st   : Status
  val  : Half
  data : List Byte
deriving DecidableEq, Repr

/-- One entry of the schedule (R9, R150): whose step comes next. DESIGN CHOICE, log 1. -/
inductive Turn where
  | consumer
  | producer
  | reset
deriving DecidableEq, Repr

/-- What the receive-interrupt handler does at its turn: `receive b` pushes the received byte with PRODUCER_PUSH (R135);
`present w` puts any other command word on port P (R55, R58). DESIGN CHOICE, log 12. -/
inductive HandlerAction where
  | receive (b : Byte)
  | present (w : Word)
deriving DecidableEq, Repr

/-- What happens at the coming turn: nothing (no agent has a step), a reset event, or a command word on a port. -/
inductive Request where
  | nothing
  | reset
  | command (p : Port) (w : Word)
deriving DecidableEq, Repr

/-- The storage of the ring buffer (R13, R30): the cells written since the last reset event, by physical index. A cell
that is not listed holds no written byte. -/
abbrev Memory := List Host.Cell

/-- The canonical form of `Memory`: indices strictly rising. (What an unlisted cell reads as is "no value", so no entry can
equal it.) -/
abbrev Memory.Wf (m : Memory) : Prop := (m.map Prod.fst).Pairwise (· < ·)

/-- The whole machine. The first five fields are the block's whole state (R10); `params` is its configuration, constant
(R5, R7, R8; log 4); the rest are the model's own: the inputs to come, the port served and the last response, and the
counter of reset events (log 1, log 3, log 5). -/
structure State where
  crc    : Byte
  mem    : Memory
  first  : Half
  count  : Half
  ie     : Bool
  params : Parameters
  epoch  : Nat
  turns  : List Turn
  cQueue : List Word
  pQueue : List HandlerAction
  port   : Port
  rsp    : Option Response
deriving DecidableEq, Repr

/-- `N`, the capacity of the ring buffer (R5). -/
abbrev State.N (s : State) : Nat := s.params.N

/-- Why a step could stop with a fault: never. "No operation of the block traps, faults, panics, halts the block" (R130), so no
constructor is needed and nothing raises one; safe. -/
inductive Fault where
deriving DecidableEq, Repr

/-- Why a step or a run can be refused. -/
inductive Refusal where
  /-- Raised by an arm of `exec` for an instruction that has no meaning yet; safe. No arm raises it now. -/
  | notModelled (mnemonic : String)
  /-- Raised by `Safety.runChecked` alone, for a RUN that contains an ILLEGAL response (R56, U10, U11); safe. `step` never
  raises it: the step itself answers the response `(ILLEGAL, 0, [])` (log 6). -/
  | illegalCommand (port : Port) (word : Word)
deriving DecidableEq, Repr

/-- The outcomes of this machine's steps. -/
abbrev Outcome := Host.Outcome State Fault Refusal

/-- The block with parameters `p` right after reset (R19, R20, R150); the model's own fields are empty (log 8). -/
def State.resetWith (p : Parameters) : State where
  crc    := 0
  mem    := []
  first  := 0
  count  := 0
  ie     := p.ieReset
  params := p
  epoch  := 0
  turns  := []
  cQueue := []
  pQueue := []
  port   := .C
  rsp    := none

/-- The machine right after reset: N and IE_RESET are open (R5, R8; log 4), PRODUCER_PUSH is its default (R7). `State.resetWith` is the
reset state at every other value of the parameters. -/
def State.reset : State := State.resetWith Config.parameters

/-- `CRC <- x`. -/
def State.setCrc (s : State) (x : Byte) : State := { s with crc := x }

/-- MEM becomes `x`. -/
def State.setMem (s : State) (x : Memory) : State := { s with mem := x }

/-- `FIRST <- x`. -/
def State.setFirst (s : State) (x : Half) : State := { s with first := x }

/-- `COUNT <- x`. -/
def State.setCount (s : State) (x : Half) : State := { s with count := x }

/-- `IE <- x`. -/
def State.setIe (s : State) (x : Bool) : State := { s with ie := x }

/-- The schedule becomes `x`. -/
def State.setTurns (s : State) (x : List Turn) : State := { s with turns := x }

/-- The consumer's coming command words become `x`. -/
def State.setCQueue (s : State) (x : List Word) : State := { s with cQueue := x }

/-- The handler's coming actions become `x`. -/
def State.setPQueue (s : State) (x : List HandlerAction) : State := { s with pQueue := x }

/-- The port being served becomes `x`. -/
def State.setPort (s : State) (x : Port) : State := { s with port := x }

/-- The response delivered becomes `x`. -/
def State.setRsp (s : State) (x : Option Response) : State := { s with rsp := x }

end Sys2Proof.Machine
end

