-- ==== Sys2Proof/Machine/Flags.lean ====
section
/-! DEFINITION. The derived flags EMPTY and FULL and the three conditions of the buffer (R16). The block stores no condition codes
and no sticky flags (R22); its one stored flag is `IE` (R18). -/

namespace Sys2Proof.Machine

/-- `EMPTY = (COUNT == 0)` (R16). -/
def flagEmpty (s : State) : Bool := s.count.toNat == 0

/-- `FULL = (COUNT == N)` (R16). -/
def flagFull (s : State) : Bool := s.count.toNat == s.N

/-- The three conditions of the buffer (R16). -/
inductive Occupancy where
  | empty
  | partiallyFilled
  | full
deriving DecidableEq, Repr

/-- "exactly one of three conditions, a function of COUNT alone" (R16). -/
def occupancy (s : State) : Occupancy :=
  if flagEmpty s then .empty else if flagFull s then .full else .partiallyFilled

end Sys2Proof.Machine
end

