-- ==== Sys2Proof/Machine/Operands.lean ====
section
/-! DEFINITION. How operands, indices and results are formed: zero extension into `val` (R52, R106), the one addressing mode of
the ring buffer (R31, R33, R106), and the response word (R52, R53). The operand fields of a command word (formats Z, B, I, F
of R51) are read in Decode.lean. -/

namespace Sys2Proof.Machine

/-- `zext_16(v)` of a byte (R26, R52: a result is zero-extended to 16 bits). -/
def zextByte (v : Byte) : Half := v.setWidth 16

/-- `zext_16(s)` of a flag (R26, R52). -/
def zextFlag (b : Bool) : Half := (BitVec.ofBool b).setWidth 16

/-- The physical index of logical index `j`: `(FIRST + j) mod N`, the sum on unbounded naturals (R31, R33). -/
def ringIndex (s : State) (j : Nat) : Nat := (s.first.toNat + j) % s.N

/-- The write index `(FIRST + COUNT) mod N`, computed and not stored (R23 item 3, R31). -/
def writeIndex (s : State) : Nat := ringIndex s s.count.toNat

/-- `(FIRST + 1) mod N`, the new FIRST of an accepted pop (R97). -/
def nextFirst (s : State) : Half := BitVec.ofNat 16 (ringIndex s 1)

/-- The number of a status (R53). -/
def Status.code : Status → BitVec 3
  | .ok => 0
  | .full => 1
  | .empty => 2
  | .range => 3
  | .illegal => 4

/-- The response word `RSPW`: zeros in bits 31:19, the status in bits 18:16, `val` in bits 15:0 (R52). -/
def Response.word (r : Response) : Word := (0#13 ++ r.st.code) ++ r.val

end Sys2Proof.Machine
end

