-- ==== Sys2Proof/Machine/Ops.lean ====
section
/-! DEFINITION. The named operations over storage and registers that every meaning goes through: reading and writing a cell of
MEM (R13, R26), the queue view (R17), delivering a response (R52), admission by port (R55, R58), and the critical-section
wrapper (R120). There is no exception to take and none to return from: the block has no trap entry (R130, R138) and no
trap return (R139); what stands in their place is `fail`, "(ST, 0, []) with no state written" (R26). -/

namespace Sys2Proof.Machine

/-- The byte listed for a cell, if one was written since the last reset event. -/
def Memory.get? : Memory → Nat → Option Byte
  | [], _ => none
  | (b, v) :: m, a => if a = b then some v else Memory.get? m a

/-- The storage with `v` in cell `a`, in canonical form. -/
def Memory.set : Memory → Nat → Byte → Memory
  | [], a, v => [(a, v)]
  | (b, w) :: m, a, v =>
    if a < b then (a, v) :: (b, w) :: m
    else if a = b then (a, v) :: m
    else (b, w) :: Memory.set m a v

/-- `MemRead(a, 1)` (R26). A cell nothing has written since the last reset event holds an unspecified byte (R20, U1), the free
value `Config.unspecifiedByte`. DESIGN CHOICE, log 5; safe. -/
def memRead (s : State) (a : Nat) : Byte := (s.mem.get? a).getD (Config.unspecifiedByte s.epoch a)

/-- `MemWrite(a, 1, v)` (R26). -/
def memWrite (s : State) (a : Nat) (v : Byte) : State := s.setMem (s.mem.set a v)

/-- The `k` oldest bytes, oldest first (R101): the cells at logical indices 0 to k-1. -/
def oldest (s : State) (k : Nat) : List Byte := (List.range k).map fun j => memRead s (ringIndex s j)

/-- The queue view `Q` (R17): the buffered bytes, oldest first. -/
def queue (s : State) : List Byte := oldest s s.count.toNat

/-- `return (st, val, data)` (R26, R52). -/
def respond (st : Status) (val : Half) (data : List Byte) (s : State) : State := s.setRsp (some ⟨st, val, data⟩)

/-- `return (OK, val, [])`. -/
def succeed (val : Half) (s : State) : State := respond .ok val [] s

/-- `fail ST`: `return (ST, 0, [])` with no state written (R26, R132). -/
def fail (st : Status) (s : State) : State := respond st 0 [] s

/-- An operation on the port being served: performed if the port admits it, else `fail ILLEGAL` (R55, R58). -/
def admitted (i : Instr) (s : State) (body : State → State) : Outcome :=
  if admits s.port i then .next (body s) else .next (fail .illegal s)

/-- The wrapper around every ring-buffer operation (R120): remember IE, clear it, perform the raw operation, restore the
remembered value. -/
def wrapped (raw : State → State) (s : State) : State :=
  let saved := s.ie
  let r := raw (s.setIe false)
  r.setIe saved

end Sys2Proof.Machine
end

