-- ==== Sys2Proof/Machine/Crc.lean ====
section
/-! DEFINITION. Unit CRC: the meanings of CRC.CLR, CRC.LD, CRC.UPD and CRC.RD (R77 to R80). -/

namespace Sys2Proof.Machine

/-- `CRC <- v`, answering OK: the shared shape of the three operations that write CRC (R77, R78, R79). -/
def crcWrite (v : Byte) (s : State) : State := succeed 0 (s.setCrc v)

/-- CRC.CLR: start a new message (R77). -/
def execCrcClr (s : State) : Outcome := admitted .crcClr s (crcWrite 0x00)

/-- CRC.LD v: load a running value (R78). -/
def execCrcLd (v : Byte) (s : State) : Outcome := admitted (.crcLd v) s (crcWrite v)

/-- CRC.UPD b: consume one message byte, `CRC <- TABLE[CRC ^ b]` (R79). -/
def execCrcUpd (b : Byte) (s : State) : Outcome := admitted (.crcUpd b) s (crcWrite (TABLE (s.crc ^^^ b)))

/-- CRC.RD: read the running value (R80). -/
def execCrcRd (s : State) : Outcome := admitted .crcRd s (succeed (zextByte s.crc))

end Sys2Proof.Machine
end

