-- ==== Sys2Proof/Machine/CriticalSection.lean ====
section
/-! DEFINITION. The explicit primitives CS.ENTER and CS.EXIT (R122, R123). -/

namespace Sys2Proof.Machine

/-- CS.ENTER: disable interrupts and return the previous state (R122). -/
def execCsEnter (s : State) : Outcome := admitted .csEnter s fun t => succeed (zextFlag t.ie) (t.setIe false)

/-- CS.EXIT s: restore a saved interrupt-enable state (R123). -/
def execCsExit (flag : Bool) (s : State) : Outcome := admitted (.csExit flag) s fun t => succeed 0 (t.setIe flag)

end Sys2Proof.Machine
end

