-- ==== Sys2Proof/Machine/RingBuffer.lean ====
section
/-! DEFINITION. Unit RB: the raw operations and, inside the wrapper (R120), the meanings of RB.PUSH, RB.PUSHD, RB.POP, RB.PEEK,
RB.PEEKF and RB.LEN (R93 to R103). -/

namespace Sys2Proof.Machine

/-- Append `v` at the write index (R93, R95). COUNT + 1 is computed only when COUNT < N, so it does not wrap (R105). -/
def append (v : Byte) (s : State) : State := (memWrite s (writeIndex s) v).setCount (s.count + 1)

/-- The raw push (R91, R93, R95): append if COUNT < N, else write nothing and answer the variant's status. -/
def rawPush (whenFull : Status) (v : Byte) (s : State) : State :=
  if s.count.toNat < s.N then succeed 0 (append v s) else fail whenFull s

/-- The raw pop (R97). The cell just read keeps its byte; FIRST advances, COUNT - 1 is computed only when COUNT > 0 (R105). -/
def rawPop (s : State) : State :=
  if 0 < s.count.toNat then
    succeed (zextByte (memRead s s.first.toNat)) ((s.setFirst (nextFirst s)).setCount (s.count - 1))
  else fail .empty s

/-- The raw peek-at (R99): the operand is an unsigned index (R105). -/
def rawPeek (idx : Half) (s : State) : State :=
  if idx.toNat < s.count.toNat then succeed (zextByte (memRead s (ringIndex s idx.toNat))) s else fail .range s

/-- The raw peek-fill (R101): all or nothing. -/
def rawPeekf (k : Half) (s : State) : State :=
  if k.toNat ≤ s.count.toNat then respond .ok k (oldest s k.toNat) s else fail .range s

/-- The raw length (R103). -/
def rawLen (s : State) : State := succeed s.count s

/-- RB.PUSH v: append a byte, rejecting when full (R93). -/
def execRbPush (v : Byte) (s : State) : Outcome := admitted (.rbPush v) s (wrapped (rawPush .full v))

/-- RB.PUSHD v: append a byte, silently dropping it when full (R95). -/
def execRbPushd (v : Byte) (s : State) : Outcome := admitted (.rbPushd v) s (wrapped (rawPush .ok v))

/-- RB.POP: remove and return the oldest byte (R97). -/
def execRbPop (s : State) : Outcome := admitted .rbPop s (wrapped rawPop)

/-- RB.PEEK i: the byte at logical index i (R99). -/
def execRbPeek (idx : Half) (s : State) : Outcome := admitted (.rbPeek idx) s (wrapped (rawPeek idx))

/-- RB.PEEKF k: the k oldest bytes (R101). -/
def execRbPeekf (k : Half) (s : State) : Outcome := admitted (.rbPeekf k) s (wrapped (rawPeekf k))

/-- RB.LEN: the number of buffered bytes (R103). -/
def execRbLen (s : State) : Outcome := admitted .rbLen s (wrapped rawLen)

end Sys2Proof.Machine
end

