-- ==== Sys2Proof/Machine/Dispatch.lean ====
section
/-! DEFINITION. One arm per operation. -/

namespace Sys2Proof.Machine

def exec (i : Instr) (s : State) : Host.Outcome State Fault Refusal :=
  match i with
  | .crcClr => Sys2Proof.Machine.execCrcClr s
  | .crcLd v => Sys2Proof.Machine.execCrcLd v s
  | .crcUpd b => Sys2Proof.Machine.execCrcUpd b s
  | .crcRd => Sys2Proof.Machine.execCrcRd s
  | .rbPush v => Sys2Proof.Machine.execRbPush v s
  | .rbPushd v => Sys2Proof.Machine.execRbPushd v s
  | .rbPop => Sys2Proof.Machine.execRbPop s
  | .rbPeek idx => Sys2Proof.Machine.execRbPeek idx s
  | .rbPeekf k => Sys2Proof.Machine.execRbPeekf k s
  | .rbLen => Sys2Proof.Machine.execRbLen s
  | .csEnter => Sys2Proof.Machine.execCsEnter s
  | .csExit flag => Sys2Proof.Machine.execCsExit flag s

end Sys2Proof.Machine
end

