-- ==== Sys2Proof/Machine/Ports.lean ====
section
/-! DEFINITION. What happens at a turn: which command word is presented on which port (R9, R55, R121, R135), the taking of it from
its agent's queue, the performing of it (R55, R56), and the reset event (R150). -/

namespace Sys2Proof.Machine

/-- The operation `PRODUCER_PUSH v` of a variant (R7, R135). -/
def producerInstr : PushVariant → Byte → Instr
  | .push, v => .rbPush v
  | .pushd, v => .rbPushd v

/-- The command word of a handler action (R135). -/
def handlerWord (p : Parameters) : HandlerAction → Word
  | .receive b => encode (producerInstr p.producerPush b)
  | .present w => w

/-- What the coming turn asks of the block. The consumer steps whatever IE is; the producer only in a state with IE = 1: while
IE = 0 "the port P presents no command" (R121). A turn whose agent has no command asks for nothing (log 2). -/
def request (s : State) : Request :=
  match s.turns with
  | [] => .nothing
  | .reset :: _ => .reset
  | .consumer :: _ =>
    match s.cQueue with
    | [] => .nothing
    | w :: _ => .command .C w
  | .producer :: _ =>
    match s.ie, s.pQueue with
    | true, a :: _ => .command .P (handlerWord s.params a)
    | true, [] => .nothing
    | false, _ => .nothing

/-- The state with the coming turn, and the command it presents, taken. A held producer keeps its command (R121; log 2). -/
def advance (s : State) : State :=
  let t := s.setTurns s.turns.tail
  match request s with
  | .nothing => t
  | .reset => t
  | .command .C _ => (t.setCQueue s.cQueue.tail).setPort .C
  | .command .P _ => (t.setPQueue s.pQueue.tail).setPort .P

/-- Performing a command word on the port being served (R55): a word that matches no row answers ILLEGAL and changes no state
(R56); admission by port is the meaning's (R58). -/
def perform (w : Word) (s : State) : Outcome :=
  match decode w with
  | .ok i => exec i s
  | .error _ => .next (fail .illegal s)

/-- The reset event (R150): the block's state becomes the reset state; the agents' coming commands are outside the block and
stay; no response. Every cell of MEM becomes unspecified anew (`epoch`). DESIGN CHOICE, log 7; safe. -/
def resetEvent (s : State) : State :=
  { State.resetWith s.params with
    epoch := s.epoch + 1, turns := s.turns, cQueue := s.cQueue, pQueue := s.pQueue, port := s.port }

end Sys2Proof.Machine
end

