-- ==== Sys2Proof/Machine/Step.lean ====
section
/-! DEFINITION. One step of the machine: one turn of the schedule (R9), and the placing of a command so that the next step
performs it. -/

namespace Sys2Proof.Machine

/-- One turn (R9): an atomic operation of one agent (R38), a reset event (R150), or no step of the block at all. -/
def step (s : State) : Host.Outcome State Fault Refusal :=
  match request s with
  | .nothing => .next (advance s)
  | .reset => .next (resetEvent (advance s))
  | .command _ w => perform w (advance s)

/-- `s` with the command word of bits `w` presented next, on port C, which admits all twelve operations (R58). The block fetches
nothing (R46): its program is what the agents present (log 9). -/
def State.withFetchWord (s : State) (nbits w : Nat) : State :=
  (s.setCQueue (BitVec.ofNat 32 (w % 2 ^ nbits) :: s.cQueue)).setTurns (.consumer :: s.turns)

end Sys2Proof.Machine
end

