-- ==== Sys2Proof/Machine/Pseudo.lean ====
section
/-! DEFINITION. The pseudo-operations (R60 to R66): names for sequences of operations, with no encoding and no constructor. A
sequence is not atomic: before each of its operations the handler may act (R43), given here as a list of handler actions. -/

namespace Sys2Proof.Machine

/-- The state after an outcome; every outcome of this machine is a next state (R130), so the default is never taken. -/
def stateAfter (o : Outcome) (s : State) : State :=
  match o with
  | .next t => t
  | .fault _ => s
  | .refused _ => s

/-- An operation issued on a port. -/
def performOn (p : Port) (i : Instr) (s : State) : State := stateAfter (exec i (s.setPort p)) s

/-- The consumer issues an operation (R59: without a prefix the port is C). -/
def issue (i : Instr) (s : State) : State := performOn .C i s

/-- The handler acts, or is held if IE = 0 (R121). -/
def handle (a : HandlerAction) (s : State) : State :=
  if s.ie then stateAfter (perform (handlerWord s.params a) (s.setPort .P)) s else s

/-- The handler acts several times. -/
def handleAll (as : List HandlerAction) (s : State) : State := as.foldl (fun t a => handle a t) s

/-- The value and the flag a response carries (R52). -/
def returned (s : State) : Half :=
  match s.rsp with
  | some r => r.val
  | none => 0

/-- The operand a `CS.EXIT` is given: the value its `CS.ENTER` returned, as one bit (R124). -/
def returnedFlag (s : State) : Bool := (returned s).getLsbD 0

/-- A sequence of operations of the consumer, each preceded by handler actions. -/
def issueAll (ops : List (List HandlerAction × Instr)) (s : State) : State :=
  ops.foldl (fun t op => issue op.2 (handleAll op.1 t)) s

/-- `CRC8 b0, ..., b(n-1)` (R60). -/
def crc8Ops (m : List Byte) : List Instr := .crcClr :: m.map .crcUpd ++ [.crcRd]

/-- `CRC8.CONT s, b0, ..., b(n-1)` (R61). -/
def crc8ContOps (c : Byte) (m : List Byte) : List Instr := .crcLd c :: m.map .crcUpd ++ [.crcRd]

/-- `RB.SKIP`: RB.POP with the returned value ignored (R62). -/
def skipOp : Instr := .rbPop

/-- `RB.POPN n -> out` (R63): one pop per entry of the list, each preceded by that entry's handler actions; it stops at the first
pop that does not answer OK, and returns the values popped so far. -/
def popN : List (List HandlerAction) → State → List Byte × State
  | [], s => ([], s)
  | as :: rest, s =>
    let t := issue .rbPop (handleAll as s)
    match t.rsp with
    | some ⟨.ok, v, _⟩ =>
      let r := popN rest t
      (v.setWidth 8 :: r.1, r.2)
    | _ => ([], t)

/-- `RB.DRAIN m -> out` (R64): at most m pops, until a pop answers EMPTY; the loop of R63 with its bound read as m. -/
def drain (m : List (List HandlerAction)) (s : State) : List Byte × State := popN m s

/-- `CRIT` of a sequence (R65): CS.ENTER, the operations, CS.EXIT of the value returned. `after` are the handler actions that fall
due before the CS.EXIT. -/
def crit (ops : List (List HandlerAction × Instr)) (after : List HandlerAction) (s : State) : State :=
  let e := issue .csEnter s
  issue (.csExit (returnedFlag e)) (handleAll after (issueAll ops e))

end Sys2Proof.Machine
end

