-- ==== Sys2Proof/Safety.lean ====
section
/-! DEFINITION. The terms claims use: the invariant (R24), what a frame leaves alone, the abstract queue machine (R17, R104), the
history of accepted pushes and pops (R41), the checked run (R56), and nested critical sections (R124). -/

namespace Sys2Proof.Safety

open Sys2Proof.Machine

/-- The invariant of the block. The first two clauses are R24; the others say that the storage is in canonical form, inside the
N cells (R13), and that every cell of the window was written (R20: "a cell enters the window only by being written"). -/
structure Invariant (s : State) : Prop where
  first_lt : s.first.toNat < s.N
  count_le : s.count.toNat ≤ s.N
  mem_wf   : Memory.Wf s.mem
  mem_lt   : ∀ c ∈ s.mem, c.1 < s.N
  window   : ∀ j < s.count.toNat, (s.mem.get? (ringIndex s j)).isSome

/-- The block's five pieces of state (R10) are unchanged. -/
structure SameBlock (s t : State) : Prop where
  crc   : t.crc = s.crc
  mem   : t.mem = s.mem
  first : t.first = s.first
  count : t.count = s.count
  ie    : t.ie = s.ie

/-- What no operation writes: the parameters, the inputs to come, the port being served, the count of reset events. -/
structure SameFrame (s t : State) : Prop where
  params : t.params = s.params
  epoch  : t.epoch = s.epoch
  turns  : t.turns = s.turns
  cQueue : t.cQueue = s.cQueue
  pQueue : t.pQueue = s.pQueue
  port   : t.port = s.port

/-- The ring buffer's storage, FIRST and COUNT are unchanged. -/
structure SameRing (s t : State) : Prop where
  mem   : t.mem = s.mem
  first : t.first = s.first
  count : t.count = s.count

/-- The response of a failed operation (R132). -/
def failed (st : Status) : Response := ⟨st, 0, []⟩

/-- The four operations of unit CRC. -/
def isCrc : Instr → Bool
  | .crcClr => true
  | .crcLd _ => true
  | .crcUpd _ => true
  | .crcRd => true
  | .rbPush _ => false
  | .rbPushd _ => false
  | .rbPop => false
  | .rbPeek _ => false
  | .rbPeekf _ => false
  | .rbLen => false
  | .csEnter => false
  | .csExit _ => false

/-- The six operations of unit RB. -/
def isRb : Instr → Bool
  | .crcClr => false
  | .crcLd _ => false
  | .crcUpd _ => false
  | .crcRd => false
  | .rbPush _ => true
  | .rbPushd _ => true
  | .rbPop => true
  | .rbPeek _ => true
  | .rbPeekf _ => true
  | .rbLen => true
  | .csEnter => false
  | .csExit _ => false

/-- The two explicit primitives. -/
def isCs (i : Instr) : Bool := !isCrc i && !isRb i

/-- The state of the block with the queue view in place of (MEM, FIRST, COUNT) (R17). -/
structure QState where
  crc : Byte
  q   : List Byte
  ie  : Bool
deriving DecidableEq, Repr

/-- The queue view of a state (R17). -/
def view (s : State) : QState := ⟨s.crc, queue s, s.ie⟩

/-- An admitted operation on the queue view, for capacity `n` (R17, R104; R77 to R80, R122, R123). -/
def QState.perform (n : Nat) (i : Instr) (a : QState) : QState × Response :=
  match i with
  | .crcClr => ({ a with crc := 0 }, ⟨.ok, 0, []⟩)
  | .crcLd v => ({ a with crc := v }, ⟨.ok, 0, []⟩)
  | .crcUpd b => ({ a with crc := TABLE (a.crc ^^^ b) }, ⟨.ok, 0, []⟩)
  | .crcRd => (a, ⟨.ok, zextByte a.crc, []⟩)
  | .rbPush v => if a.q.length < n then ({ a with q := a.q ++ [v] }, ⟨.ok, 0, []⟩) else (a, failed .full)
  | .rbPushd v => if a.q.length < n then ({ a with q := a.q ++ [v] }, ⟨.ok, 0, []⟩) else (a, ⟨.ok, 0, []⟩)
  | .rbPop =>
    match a.q with
    | [] => (a, failed .empty)
    | b :: rest => ({ a with q := rest }, ⟨.ok, zextByte b, []⟩)
  | .rbPeek idx =>
    match a.q[idx.toNat]? with
    | none => (a, failed .range)
    | some b => (a, ⟨.ok, zextByte b, []⟩)
  | .rbPeekf k => if k.toNat ≤ a.q.length then (a, ⟨.ok, k, a.q.take k.toNat⟩) else (a, failed .range)
  | .rbLen => (a, ⟨.ok, BitVec.ofNat 16 a.q.length, []⟩)
  | .csEnter => ({ a with ie := false }, ⟨.ok, zextFlag a.ie, []⟩)
  | .csExit flag => ({ a with ie := flag }, ⟨.ok, 0, []⟩)

/-- An operation on the queue view, on a port (R58). -/
def QState.exec (n : Nat) (p : Port) (i : Instr) (a : QState) : QState × Response :=
  if admits p i then a.perform n i else (a, failed .illegal)

/-- Two states that R17 says cannot be told apart: the same queue, CRC and IE, in the same surroundings. FIRST, MEM outside the
window and the free value's counter may differ. -/
structure SameView (s t : State) : Prop where
  view   : view t = view s
  params : t.params = s.params
  turns  : t.turns = s.turns
  cQueue : t.cQueue = s.cQueue
  pQueue : t.pQueue = s.pQueue
  port   : t.port = s.port
  rsp    : t.rsp = s.rsp

/-- The byte the coming step pushes, if it performs a push that is accepted: "an accepted push" finds COUNT < N (R93, R95). -/
def acceptedPush (s : State) : List Byte :=
  match request s with
  | .command _ w =>
    match decode w with
    | .ok (.rbPush v) => if s.count.toNat < s.N then [v] else []
    | .ok (.rbPushd v) => if s.count.toNat < s.N then [v] else []
    | _ => []
  | _ => []

/-- The byte the step from `s` to `t` popped, if it performed an accepted pop: what the response returned (R97). -/
def poppedByte (s t : State) : List Byte :=
  match request s with
  | .command .C w =>
    match decode w, t.rsp with
    | .ok .rbPop, some ⟨.ok, v, _⟩ => [v.setWidth 8]
    | _, _ => []
  | _ => []

/-- The bytes accepted and the bytes popped by the next `n` steps, each in step order, and the state they end in. -/
def history : Nat → State → List Byte × List Byte × State
  | 0, s => ([], [], s)
  | n + 1, s =>
    let t := stateAfter (step s) s
    let h := history n t
    (acceptedPush s ++ h.1, poppedByte s t ++ h.2.1, h.2.2)

/-- A command word is performed on a port: it matches a row that the port admits (R55). -/
def accepts (p : Port) (w : Word) : Bool :=
  match decode w with
  | .ok i => admits p i
  | .error _ => false

/-- `n` steps, mapped to the outcome "refused" if one of them answers ILLEGAL (R56, U10, U11; log 6). -/
def runChecked : Nat → State → Outcome
  | 0, s => .next s
  | n + 1, s =>
    match request s with
    | .command p w => if accepts p w then runChecked n (stateAfter (step s) s) else .refused (.illegalCommand p w)
    | .reset => runChecked n (stateAfter (step s) s)
    | .nothing => runChecked n (stateAfter (step s) s)

/-- Operations issued one after another, each on its port. -/
def performAll (ops : List (Port × Instr)) (s : State) : State := ops.foldl (fun t op => performOn op.1 op.2 t) s

/-- A handler action on the queue, for parameters `p`, while IE is `ie`: an accepted push adds its byte at the tail, and nothing else
the handler can present changes the queue (R17, R58, R121, R135). -/
def handleQueue (p : Parameters) (ie : Bool) (q : List Byte) (a : HandlerAction) : List Byte :=
  if ie then
    match decode (handlerWord p a) with
    | .ok (.rbPush v) => if q.length < p.N then q ++ [v] else q
    | .ok (.rbPushd v) => if q.length < p.N then q ++ [v] else q
    | _ => q
  else q

/-- RB.DRAIN on the queue (R64): in each round the handler's actions, then the byte at the head; it ends at an empty queue. The
bytes taken, and the queue left. -/
def drainQueue (p : Parameters) (ie : Bool) : List (List HandlerAction) → List Byte → List Byte × List Byte
  | [], q => ([], q)
  | as :: rest, q =>
    match as.foldl (handleQueue p ie) q with
    | [] => ([], [])
    | b :: q' =>
      let r := drainQueue p ie rest q'
      (b :: r.1, r.2)

/-- What runs inside a critical section (R124): operations and properly nested sections. Before each operation, each inner
section and the end of the body the handler may try to act. -/
inductive Nest where
  | done (before : List HandlerAction)
  | op (before : List HandlerAction) (i : Instr) (rest : Nest)
  | pair (before : List HandlerAction) (inner rest : Nest)

/-- The operations of a body are not the two primitives themselves: those stand only in pairs (R124). -/
def Nest.proper : Nest → Bool
  | .done _ => true
  | .op _ i rest => !isCs i && rest.proper
  | .pair _ inner rest => inner.proper && rest.proper

/-- The same body with a handler that never tries to act. -/
def Nest.quiet : Nest → Nest
  | .done _ => .done []
  | .op _ i rest => .op [] i rest.quiet
  | .pair _ inner rest => .pair [] inner.quiet rest.quiet

/-- Running a body: the values of IE whenever the handler may try to act, the values the inner CS.ENTER return, and the state
after. Each CS.EXIT is given the value its own CS.ENTER returned (R124). -/
def Nest.run : Nest → State → List Bool × List Half × State
  | .done as, s => ([s.ie], [], handleAll as s)
  | .op as i rest, s =>
    let r := rest.run (issue i (handleAll as s))
    (s.ie :: r.1, r.2.1, r.2.2)
  | .pair as inner rest, s =>
    let e := issue .csEnter (handleAll as s)
    let r := inner.run e
    let r' := rest.run (issue (.csExit (returnedFlag e)) r.2.2)
    (s.ie :: r.1 ++ r'.1, returned e :: r.2.1 ++ r'.2.1, r'.2.2)

end Sys2Proof.Safety
end

