-- ==== Sys2Proof/Safety/Polynomial.lean ====
section
/-! DEFINITION. The polynomial reading of a message and of a CRC (R2, R76), for the claim that the checksum is a remainder. -/

namespace Sys2Proof.Safety

open Polynomial

/-- `G(x) = x^8 + x^2 + x + 1` over GF(2) (R2, R76). -/
noncomputable def generatorPoly : Polynomial (ZMod 2) := X ^ 8 + X ^ 2 + X + 1

/-- A byte as a polynomial: bit `j` is the coefficient of `x^j` (R76). -/
noncomputable def bytePoly (b : Byte) : Polynomial (ZMod 2) :=
  ∑ j ∈ Finset.range 8, if b.getLsbD j then X ^ j else 0

/-- A message as the polynomial `M(x)`: the first byte's bit 7 is the coefficient of the highest power (R76). -/
noncomputable def messagePoly : List Byte → Polynomial (ZMod 2)
  | [] => 0
  | b :: bs => bytePoly b * X ^ (8 * bs.length) + messagePoly bs

end Sys2Proof.Safety
end

