-- ==== Sys2Proof/Certificates/Slice0/Obligations.lean ====
section
/-! DEFINITION. The statements. "Derived" means that the statement rests on rules the spec marks as its own decision or derivation,
on several rules in part, or on an entry of the assumption log; its docstring then names them. -/

open Sys2Proof Sys2Proof.Machine Sys2Proof.Safety

/-! ### Reset and the reset event -/

/-- Derived: 10_state.md section 5 (rule R20, marked decision D13; R16, R19); 00_scope.md section 4 (R7, marked decision D9: the
default of PRODUCER_PUSH). For every value of the parameters. That MEM lists nothing is the model's form of "unspecified"
(log 5). -/
def Obligations.ResetLeavesEmptyQueue : Prop :=
  State.reset = State.resetWith Config.parameters ∧ State.reset.params.producerPush = .pushd ∧
  ∀ p : Parameters,
    (State.resetWith p).crc = 0x00 ∧ (State.resetWith p).first = 0 ∧ (State.resetWith p).count = 0 ∧
    queue (State.resetWith p) = [] ∧ (State.resetWith p).mem = [] ∧ (State.resetWith p).ie = p.ieReset ∧
    (State.resetWith p).params = p ∧ flagEmpty (State.resetWith p) = true ∧ flagFull (State.resetWith p) = false

/-- Derived: 10_state.md section 9 (rule R24, marked derived); the clauses on the storage are the model's (log 5). -/
def Obligations.ResetMeetsInvariant : Prop :=
  Invariant State.reset ∧ ∀ p : Parameters, Invariant (State.resetWith p)

/-- Derived: 70_reset_and_hazards.md section 1 (rule R150, marked decision D13). That the agents' coming commands stay and that a
reset event delivers no response is the model's choice (log 7). -/
def Obligations.ResetEventRestoresResetState : Prop :=
  ∀ (s : State) (ts : List Turn), s.turns = .reset :: ts →
    ∃ t, step s = .next t ∧ SameBlock (State.resetWith s.params) t ∧ t.params = s.params ∧ queue t = [] ∧
      t.turns = ts ∧ t.cQueue = s.cQueue ∧ t.pQueue = s.pQueue ∧ t.rsp = none

/-- Derived: 70_reset_and_hazards.md section 1 (rule R151, marked derived) for RB.LEN, RB.POP, the peeks and CRC.RD; for the other
seven the operations' rules (40_crc.md section 3, R77 to R79; 41_ringbuffer.md section 3, R93, R95; 42_critical_section.md
section 3, R122, R123) at the reset state of R150 (decision D13). All twelve operations, on port C (log 8). -/
def Obligations.ResetConsequences : Prop :=
  ∀ (p : Parameters) (i k : Half) (v : Byte) (b : Bool), k ≠ 0 →
    exec .crcClr (State.resetWith p) = .next { State.resetWith p with rsp := some ⟨.ok, 0, []⟩ } ∧
    exec (.crcLd v) (State.resetWith p) = .next { State.resetWith p with crc := v, rsp := some ⟨.ok, 0, []⟩ } ∧
    exec (.crcUpd v) (State.resetWith p) = .next { State.resetWith p with crc := TABLE v, rsp := some ⟨.ok, 0, []⟩ } ∧
    exec (.rbPush v) (State.resetWith p) =
      .next { State.resetWith p with mem := [(0, v)], count := 1, rsp := some ⟨.ok, 0, []⟩ } ∧
    exec (.rbPushd v) (State.resetWith p) =
      .next { State.resetWith p with mem := [(0, v)], count := 1, rsp := some ⟨.ok, 0, []⟩ } ∧
    exec (.csExit b) (State.resetWith p) = .next { State.resetWith p with ie := b, rsp := some ⟨.ok, 0, []⟩ } ∧
    exec .rbLen (State.resetWith p) = .next { State.resetWith p with rsp := some ⟨.ok, 0, []⟩ } ∧
    exec .rbPop (State.resetWith p) = .next { State.resetWith p with rsp := some ⟨.empty, 0, []⟩ } ∧
    exec (.rbPeek i) (State.resetWith p) = .next { State.resetWith p with rsp := some ⟨.range, 0, []⟩ } ∧
    exec (.rbPeekf 0) (State.resetWith p) = .next { State.resetWith p with rsp := some ⟨.ok, 0, []⟩ } ∧
    exec (.rbPeekf k) (State.resetWith p) = .next { State.resetWith p with rsp := some ⟨.range, 0, []⟩ } ∧
    exec .crcRd (State.resetWith p) = .next { State.resetWith p with rsp := some ⟨.ok, 0, []⟩ } ∧
    exec .csEnter (State.resetWith p) =
      .next { State.resetWith p with ie := false, rsp := some ⟨.ok, (BitVec.ofBool p.ieReset).setWidth 16, []⟩ }

/-! ### Invariants -/

/-- Derived: 10_state.md section 9 (rule R24, marked derived: "Each operation preserves them"), with the canonical form of the
storage and "a cell enters the window only by being written" (R20). Holds of a step from every state that meets it. -/
def Obligations.StepKeepsInvariant : Prop :=
  ∀ s t : State, Invariant s → step s = .next t → Invariant t

/-- Derived: 10_state.md section 9 (rule R24, marked derived), for every schedule and all coming commands. That the parameters are
no state and so never change is 00_scope.md section 4 and 10_state.md section 1 (R5, R10); that State carries them in a constant
field is the model's choice (log 4). -/
def Obligations.ReachableIndicesStayInRange : Prop :=
  ∀ (n : Nat) (p : Parameters) (ts : List Turn) (cs : List Word) (ps : List HandlerAction) (t : State),
    core.run n ({ State.resetWith p with turns := ts, cQueue := cs, pQueue := ps } : State) = .next t →
    t.first.toNat < t.N ∧ t.count.toNat ≤ t.N ∧ t.params = p

/-- Derived: 10_state.md section 3 (rule R16): exactly one of the three conditions, a function of COUNT alone. -/
def Obligations.OccupancyFollowsCount : Prop :=
  ∀ s : State, Invariant s →
    (occupancy s = .empty ↔ s.count = 0) ∧ (occupancy s = .full ↔ s.count.toNat = s.N) ∧
    (occupancy s = .partiallyFilled ↔ 0 < s.count.toNat ∧ s.count.toNat < s.N) ∧
    (s.N = 1 → occupancy s ≠ .partiallyFilled)

/-- Derived: 20_memory.md section 1 (rule R33, marked derived). -/
def Obligations.IndexSumNeedsOneSubtraction : Prop :=
  ∀ (s : State) (j : Nat), Invariant s → j ≤ s.count.toNat →
    s.first.toNat + j ≤ 2 * s.N - 1 ∧
    ringIndex s j = (if s.N ≤ s.first.toNat + j then s.first.toNat + j - s.N else s.first.toNat + j) ∧
    ringIndex s j < s.N

/-! ### Command words and responses -/

/-- Derived: 30_encoding.md sections 2 and 4 (rules R50, R51, R54, marked decision D3). -/
def Obligations.DecodeOfEncodeIsTheInstruction : Prop :=
  ∀ i : Instr, i.wellFormed = true → decode (encode i) = .ok i

/-- Derived: 30_encoding.md sections 2 and 4 (rules R50, R51, R54, R56, marked decisions D3, D6): no two words mean one operation, and
no stray bit is ignored. -/
def Obligations.EncodeOfDecodeIsTheWord : Prop :=
  ∀ (w : Word) (i : Instr), decode w = .ok i → encode i = w

/-- Derived: 30_encoding.md sections 2 and 4 (rules R50, R51, R54, marked decision D3): every operand is one contiguous field,
and the row that the word matches is the instruction's own. -/
def Obligations.EncodingPlacesItsFields : Prop :=
  ∀ i : Instr, wordMBZ (encode i) = 0 ∧ (wordARG (encode i)).toNat = i.operand.getD 0 ∧
    ∃ r ∈ opcodeMap, r.format = i.format ∧ wordOPC (encode i) = r.opc ∧ encode i &&& r.mask = r.pattern ∧
      r.build (wordARG (encode i)) = i

/-- Derived: 30_encoding.md section 4 (rules R54, R55, marked decisions D3, D6): no two rows overlap. -/
def Obligations.OpcodeRowsDoNotOverlap : Prop :=
  ∀ (w : Word) (j k : Nat) (r q : Row), opcodeMap[j]? = some r → opcodeMap[k]? = some q →
    w &&& r.mask = r.pattern → w &&& q.mask = q.pattern → j = k

/-- Derived: 30_encoding.md section 4 (rule R54, marked decision D3): words written out from the map's encodings. -/
def Obligations.SampleWordsDecode : Prop :=
  decode 0b00010010000000000000000001010101 = .ok (.crcUpd 0x55) ∧
  decode 0b00100001000000000000000001110111 = .ok (.rbPushd 0x77) ∧
  decode 0b00100011000000001111111111111111 = .ok (.rbPeek 65535) ∧
  decode 0b00110001000000000000000000000001 = .ok (.csExit true)

/-- Derived: 30_encoding.md sections 4 and 5 (rules R55, R56, marked decision D6); that the step answers next is log 6. A word that
matches no row, on either port, answers ILLEGAL and changes no state. -/
def Obligations.IllegalWordChangesNothing : Prop :=
  ∀ (s : State) (p : Port) (w : Word), request s = .command p w →
    (∀ r ∈ opcodeMap, w &&& r.mask ≠ r.pattern) →
    ∃ t, step s = .next t ∧ t.rsp = some ⟨.illegal, 0, []⟩ ∧ t.port = p ∧ SameBlock s t ∧ t.params = s.params

/-- Derived: 30_encoding.md section 6 (rule R58, marked decision D7); that the refusal is a response is log 6. Port C admits all
twelve operations, port P the two pushes; anything else on P answers ILLEGAL and changes no state. -/
def Obligations.PortAdmission : Prop :=
  ∀ (i : Instr) (s : State),
    (s.port = .C → ∃ t r, exec i s = .next t ∧ t.rsp = some r ∧ r.st ≠ .illegal) ∧
    (s.port = .P → (∃ v, i = .rbPush v ∨ i = .rbPushd v) → ∃ t r, exec i s = .next t ∧ t.rsp = some r ∧ r.st ≠ .illegal) ∧
    (s.port = .P → (∀ v, i ≠ .rbPush v ∧ i ≠ .rbPushd v) → exec i s = .next { s with rsp := some ⟨.illegal, 0, []⟩ })

/-- Derived: 30_encoding.md section 3 (rules R52, R53, marked decision D5). -/
def Obligations.ResponseWordFields : Prop :=
  ∀ r : Response, r.word.toNat = r.st.code.toNat * 2 ^ 16 + r.val.toNat ∧ r.word.extractLsb' 19 13 = 0 ∧
    r.word.extractLsb' 16 3 = r.st.code ∧ r.word.extractLsb' 0 16 = r.val ∧ r.st.code.toNat < 5

/-! ### One step -/

/-- Derived: 00_scope.md section 5 (rule R9, marked decision D4), 30_encoding.md section 4 (rule R55). When the coming turn presents a
word that decodes to `i`, the step is `exec i` at the state with that turn and that word taken and the port set. Where the turns and
the commands are held and how a step takes them is the model's choice (log 1), so is that the port is a field of State (log 3),
the word of a handler action (log 12), and how a word is placed to be the next (log 9). -/
def Obligations.StepRunsDecodedInstruction : Prop :=
  (∀ (s : State) (ts : List Turn) (w : Word) (ws : List Word) (i : Instr),
    s.turns = .consumer :: ts → s.cQueue = w :: ws → decode w = .ok i →
    step s = exec i { s with turns := ts, cQueue := ws, port := .C }) ∧
  (∀ (s : State) (ts : List Turn) (a : HandlerAction) (as : List HandlerAction) (i : Instr),
    s.turns = .producer :: ts → s.ie = true → s.pQueue = a :: as → decode (handlerWord s.params a) = .ok i →
    step s = exec i { s with turns := ts, pQueue := as, port := .P }) ∧
  (∀ (s : State) (w : Word) (i : Instr), decode w = .ok i →
    step (s.withFetchWord 32 w.toNat) = exec i { s with port := .C })

/-- Derived: 60_exceptions.md sections 1 and 7 (R130, R141): every command completes in its own step, and every outcome is a response
to the agent that issued it; nothing faults, halts or refuses. That a turn without a step passes is log 2, that a reset event is a
next state without a response log 7, that an ILLEGAL command is answered by the step and not refused log 6, that the response and
its port are fields of State log 3. -/
def Obligations.EveryCommandIsAnswered : Prop :=
  (∀ s : State, ∃ t, step s = .next t) ∧
  (∀ (s : State) (p : Port) (w : Word), request s = .command p w →
    ∃ t r, step s = .next t ∧ t.port = p ∧ t.rsp = some r) ∧
  (∀ (i : Instr) (s : State), ∃ t r, exec i s = .next t ∧ t.port = s.port ∧ t.rsp = some r)

/-- Derived: 42_critical_section.md section 2 (rule R121, marked derived); that the turn passes is log 2. A held producer keeps its
command, changes nothing and gets no response; only CS.EXIT 1 of the consumer, or a reset event, lifts the hold. -/
def Obligations.ProducerHeldWhileMasked : Prop :=
  (∀ (s : State) (ts : List Turn), s.ie = false → s.turns = .producer :: ts → step s = .next { s with turns := ts }) ∧
  (∀ s t : State, s.ie = false → step s = .next t → t.ie = true →
    request s = .command .C (encode (.csExit true)) ∨ request s = .reset)

/-- Stated: "A producer step therefore starts in a state with IE = 1 (rule R121) and ends with IE = 1" (R126). -/
def Obligations.ProducerStepKeepsInterruptsEnabled : Prop :=
  ∀ (s : State) (w : Word), request s = .command .P w → s.ie = true ∧ ∃ t, step s = .next t ∧ t.ie = true

/-- Derived: 60_exceptions.md section 3 (rule R135, marked decision D24), 00_scope.md section 4 (R7); log 12. One interrupt, one
byte, one PRODUCER_PUSH on port P. -/
def Obligations.ReceiveInterruptPushesOneByte : Prop :=
  ∀ (s : State) (ts : List Turn) (b : Byte) (as : List HandlerAction),
    s.turns = .producer :: ts → s.ie = true → s.pQueue = .receive b :: as →
    ∃ t, step s = .next t ∧ t.port = .P ∧ t.turns = ts ∧ t.pQueue = as ∧ t.crc = s.crc ∧ t.ie = true ∧
      queue t = (if s.count.toNat < s.N then queue s ++ [b] else queue s) ∧
      t.rsp = some (if s.count.toNat < s.N ∨ s.params.producerPush = .pushd then ⟨.ok, 0, []⟩ else ⟨.full, 0, []⟩)

/-- Derived: 20_memory.md section 7 (rule R42, marked decision D15); log 13. A push and a pop presented together at COUNT = N: both
orders are steps of the machine, and they differ as the rule says. -/
def Obligations.PushAndPopTogetherAtFull : Prop :=
  ∀ (s : State) (b : Byte) (q : List Byte) (v : Byte) (ts : List Turn),
    Invariant s → s.ie = true → s.count.toNat = s.N → queue s = b :: q →
    let both : State := { s with pQueue := .receive v :: s.pQueue, cQueue := encode .rbPop :: s.cQueue }
    (∃ t, core.run 2 (both.setTurns (.producer :: .consumer :: ts)) = .next t ∧
      queue t = q ∧ t.rsp = some ⟨.ok, b.setWidth 16, []⟩) ∧
    (∃ t, core.run 2 (both.setTurns (.consumer :: .producer :: ts)) = .next t ∧
      queue t = q ++ [v] ∧ t.rsp = some ⟨.ok, 0, []⟩)

/-! ### Unit CRC -/

/-- Stated: R70, R71, R72. -/
def Obligations.Crc8Composes : Prop :=
  crc8 [] = 0x00 ∧
  (∀ m : List Byte, crc8 m = m.foldl (fun c b => TABLE (c ^^^ b)) 0x00) ∧
  (∀ m : List Byte, crc8 m = crc8Incremental 0x00 m) ∧
  (∀ s : Byte, crc8Incremental s [] = s) ∧
  (∀ (s : Byte) (a b : List Byte), crc8Incremental s (a ++ b) = crc8Incremental (crc8Incremental s a) b) ∧
  (∀ a b : List Byte, crc8 (a ++ b) = crc8Incremental (crc8 a) b)

/-- Stated: R74: the table is the bit-by-bit reference on one-byte messages, and so is crc8. -/
def Obligations.TableIsBitwiseReference : Prop :=
  ∀ b : Byte, TABLE b = crc8Bitwise 0x00 [b] ∧ crc8 [b] = TABLE b

/-- Derived: 40_crc.md section 2 (rule R76, marked decision D23 and general knowledge): "The table form of rule R70 and this bit form
agree on every input". -/
def Obligations.Crc8IsBitwiseOnEveryMessage : Prop :=
  ∀ (c : Byte) (m : List Byte), crc8Incremental c m = crc8Bitwise c m

/-- Derived: 40_crc.md section 2 (rule R76, marked decision D23 and general knowledge): "crc8(bytes) = (M(x) * x^8) mod G(x)". -/
def Obligations.Crc8IsPolynomialRemainder : Prop :=
  ∀ m : List Byte, bytePoly (crc8 m) = (messagePoly m * Polynomial.X ^ 8) %ₘ generatorPoly

/-- Derived: 40_crc.md section 4 (rule R82, marked derived): linearity, appended checksum, leading zeros, the eight XOR trees, the
bijection. -/
def Obligations.CrcArithmeticLaws : Prop :=
  (∀ a b : Byte, TABLE (a ^^^ b) = TABLE a ^^^ TABLE b) ∧
  (∀ m n : List Byte, m.length = n.length → crc8 (List.zipWith (fun a b => a ^^^ b) m n) = crc8 m ^^^ crc8 n) ∧
  (∀ (c : Byte) (m : List Byte), crc8Incremental c m = crc8Incremental c (List.replicate m.length 0) ^^^ crc8 m) ∧
  (∀ m : List Byte, crc8 (m ++ [crc8 m]) = 0x00) ∧
  (∀ (n : Nat) (m : List Byte), crc8 (List.replicate n 0 ++ m) = crc8 m) ∧
  (∀ d : Byte,
    (TABLE d).getLsbD 0 = (d.getLsbD 0 ^^ d.getLsbD 6 ^^ d.getLsbD 7) ∧
    (TABLE d).getLsbD 1 = (d.getLsbD 0 ^^ d.getLsbD 1 ^^ d.getLsbD 6) ∧
    (TABLE d).getLsbD 2 = (d.getLsbD 0 ^^ d.getLsbD 1 ^^ d.getLsbD 2 ^^ d.getLsbD 6) ∧
    (TABLE d).getLsbD 3 = (d.getLsbD 1 ^^ d.getLsbD 2 ^^ d.getLsbD 3 ^^ d.getLsbD 7) ∧
    (TABLE d).getLsbD 4 = (d.getLsbD 2 ^^ d.getLsbD 3 ^^ d.getLsbD 4) ∧
    (TABLE d).getLsbD 5 = (d.getLsbD 3 ^^ d.getLsbD 4 ^^ d.getLsbD 5) ∧
    (TABLE d).getLsbD 6 = (d.getLsbD 4 ^^ d.getLsbD 5 ^^ d.getLsbD 6) ∧
    (TABLE d).getLsbD 7 = (d.getLsbD 5 ^^ d.getLsbD 6 ^^ d.getLsbD 7)) ∧
  (∀ a b : Byte, TABLE a = TABLE b → a = b) ∧
  (∀ (m n : List Byte) (a b : Byte), a ≠ b → crc8 (m ++ a :: n) ≠ crc8 (m ++ b :: n))

/-- Stated: R77. -/
def Obligations.CrcClrEffect : Prop :=
  encode .crcClr = 0x10000000 ∧
  ∀ s : State, s.port = .C → exec .crcClr s = .next { s with crc := 0x00, rsp := some ⟨.ok, 0, []⟩ }

/-- Derived: 40_crc.md section 3 (rule R78, marked decision D8). -/
def Obligations.CrcLdEffect : Prop :=
  (∀ v : Byte, encode (.crcLd v) = 0x11000000 ||| v.setWidth 32) ∧
  (∀ (v : Byte) (s : State), s.port = .C → exec (.crcLd v) s = .next { s with crc := v, rsp := some ⟨.ok, 0, []⟩ }) ∧
  (∀ s : State, s.port = .C → exec (.crcLd 0x00) s = exec .crcClr s)

/-- Derived: 40_crc.md section 3 (rule R79, but for its remark on `b = 0x00`: by the table of R75 the update with 0x00 leaves CRC
unchanged at CRC = 0xFD too). -/
def Obligations.CrcUpdEffect : Prop :=
  (∀ b : Byte, encode (.crcUpd b) = 0x12000000 ||| b.setWidth 32) ∧
  (∀ (b : Byte) (s : State), s.port = .C →
    exec (.crcUpd b) s = .next { s with crc := TABLE (s.crc ^^^ b), rsp := some ⟨.ok, 0, []⟩ }) ∧
  (∀ s : State, s.port = .C → exec (.crcUpd s.crc) s = .next { s with crc := 0x00, rsp := some ⟨.ok, 0, []⟩ }) ∧
  TABLE 0x10 = 0x70

/-- Stated: R80. -/
def Obligations.CrcRdEffect : Prop :=
  encode .crcRd = 0x13000000 ∧
  (∀ s : State, s.port = .C → exec .crcRd s = .next { s with rsp := some ⟨.ok, s.crc.setWidth 16, []⟩ }) ∧
  (∀ s : State, (s.crc.setWidth 16 : Half).extractLsb' 8 8 = 0)

/-- Stated: R83. No CRC operation writes MEM, FIRST, COUNT or IE, or depends on them, and each answers OK. -/
def Obligations.CrcUnitIsIsolated : Prop :=
  ∀ (i : Instr) (s : State), isCrc i = true → s.port = .C →
    ∃ (t : State) (v : Half), exec i s = .next t ∧ t.rsp = some ⟨.ok, v, []⟩ ∧
      SameRing s t ∧ t.ie = s.ie ∧ SameFrame s t ∧
      ∀ u : State, u.port = .C → u.crc = s.crc → ∃ u', exec i u = .next u' ∧ u'.crc = t.crc ∧ u'.rsp = t.rsp

/-- Derived: 10_state.md section 2 (rule R11, but for its sentence on the remainder): who writes CRC, and with what; "No ring-buffer
operation and no critical-section operation touches it". -/
def Obligations.OnlyCrcWritesTouchCrc : Prop :=
  ∀ (i : Instr) (s t : State), exec i s = .next t →
    (isCrc i = false → t.crc = s.crc) ∧
    (t.crc = s.crc ∨ (i = .crcClr ∧ t.crc = 0x00) ∨ (i = .crcLd t.crc) ∨ (∃ b, i = .crcUpd b ∧ t.crc = TABLE (s.crc ^^^ b)))

/-- Derived: 40_crc.md section 4 (rule R81, marked derived), 30_encoding.md section 8 (R60, R61). Whatever other operations either
port issues in between, CRC.CLR, the updates of `m` and CRC.RD return crc8 m, and with CRC.LD c in place of CRC.CLR they
return crc8_incremental(c, m). -/
def Obligations.StreamingComputesCrc8 : Prop :=
  (∀ (m : List Byte) (ops : List (Port × Instr)) (s : State),
    (ops ++ [(Port.C, Instr.crcRd)]).filter (fun o => admits o.1 o.2 && isCrc o.2) = (crc8Ops m).map (fun i => (Port.C, i)) →
    (performAll (ops ++ [(Port.C, Instr.crcRd)]) s).rsp = some ⟨.ok, (crc8 m).setWidth 16, []⟩) ∧
  (∀ (c : Byte) (m : List Byte) (ops : List (Port × Instr)) (s : State),
    (ops ++ [(Port.C, Instr.crcRd)]).filter (fun o => admits o.1 o.2 && isCrc o.2) = (crc8ContOps c m).map (fun i => (Port.C, i)) →
    (performAll (ops ++ [(Port.C, Instr.crcRd)]) s).rsp = some ⟨.ok, (crc8Incremental c m).setWidth 16, []⟩)

/-! ### Unit RB -/

/-- Stated: R93, on either port (R58). -/
def Obligations.RbPushEffect : Prop :=
  (∀ v : Byte, encode (.rbPush v) = 0x20000000 ||| v.setWidth 32) ∧
  (∀ s : State, writeIndex s = (s.first.toNat + s.count.toNat) % s.N) ∧
  (∀ (v : Byte) (s : State), s.count.toNat < s.N →
    ∃ t, exec (.rbPush v) s = .next t ∧ t.count.toNat = s.count.toNat + 1 ∧
      memRead t (writeIndex s) = v ∧ (∀ a, a ≠ writeIndex s → memRead t a = memRead s a) ∧
      t.first = s.first ∧ t.crc = s.crc ∧ t.ie = s.ie ∧ SameFrame s t ∧ t.rsp = some ⟨.ok, 0, []⟩ ∧
      queue t = queue s ++ [v]) ∧
  (∀ (v : Byte) (s : State), s.N ≤ s.count.toNat →
    exec (.rbPush v) s = .next { s with rsp := some ⟨.full, 0, []⟩ })

/-- Stated: R95, on either port (R58). -/
def Obligations.RbPushdEffect : Prop :=
  (∀ v : Byte, encode (.rbPushd v) = 0x21000000 ||| v.setWidth 32) ∧
  (∀ (v : Byte) (s : State), s.count.toNat < s.N →
    ∃ t, exec (.rbPushd v) s = .next t ∧ t.count.toNat = s.count.toNat + 1 ∧
      memRead t (writeIndex s) = v ∧ (∀ a, a ≠ writeIndex s → memRead t a = memRead s a) ∧
      t.first = s.first ∧ t.crc = s.crc ∧ t.ie = s.ie ∧ SameFrame s t ∧ t.rsp = some ⟨.ok, 0, []⟩ ∧
      queue t = queue s ++ [v]) ∧
  (∀ (v : Byte) (s : State), s.N ≤ s.count.toNat →
    exec (.rbPushd v) s = .next { s with rsp := some ⟨.ok, 0, []⟩ }) ∧
  (∀ (v : Byte) (s : State), ∃ t, exec (.rbPush v) s = .next t ∧
    exec (.rbPushd v) s = .next { t with rsp := some ⟨.ok, 0, []⟩ })

/-- Stated: R97. The queue view needs FIRST < N, which holds of every reachable state (R24). -/
def Obligations.RbPopEffect : Prop :=
  encode .rbPop = 0x22000000 ∧
  (∀ s : State, s.port = .C → 0 < s.count.toNat →
    exec .rbPop s = .next
      { s with first := BitVec.ofNat 16 ((s.first.toNat + 1) % s.N)
               count := s.count - 1
               rsp := some ⟨.ok, (memRead s s.first.toNat).setWidth 16, []⟩ }) ∧
  (∀ s : State, s.port = .C → s.first.toNat < s.N → 0 < s.count.toNat →
    ∃ (t : State) (b : Byte), exec .rbPop s = .next t ∧ queue s = b :: queue t ∧
      t.rsp = some ⟨.ok, b.setWidth 16, []⟩ ∧ t.count.toNat + 1 = s.count.toNat ∧
      t.first.toNat = (s.first.toNat + 1) % s.N ∧ ∀ a, memRead t a = memRead s a) ∧
  (∀ s : State, s.port = .C → s.count = 0 → exec .rbPop s = .next { s with rsp := some ⟨.empty, 0, []⟩ })

/-- Derived: 41_ringbuffer.md section 3 (rule R99; its success condition is marked decision D10, 90_conflicts.md C3). -/
def Obligations.RbPeekEffect : Prop :=
  (∀ i : Half, encode (.rbPeek i) = 0x23000000 ||| i.setWidth 32) ∧
  (∀ (i : Half) (s : State), s.port = .C → i.toNat < s.count.toNat →
    exec (.rbPeek i) s =
      .next { s with rsp := some ⟨.ok, (memRead s ((s.first.toNat + i.toNat) % s.N)).setWidth 16, []⟩ } ∧
    (queue s)[i.toNat]? = some (memRead s ((s.first.toNat + i.toNat) % s.N))) ∧
  (∀ (i : Half) (s : State), s.port = .C → s.count.toNat ≤ i.toNat →
    exec (.rbPeek i) s = .next { s with rsp := some ⟨.range, 0, []⟩ })

/-- Derived: 41_ringbuffer.md section 3 (rule R101; the case k = 0 and the failing response are marked decisions D10, D11). -/
def Obligations.RbPeekfEffect : Prop :=
  (∀ k : Half, encode (.rbPeekf k) = 0x24000000 ||| k.setWidth 32) ∧
  (∀ (k : Half) (s : State), s.port = .C → k.toNat ≤ s.count.toNat →
    exec (.rbPeekf k) s = .next { s with rsp := some ⟨.ok, k, (queue s).take k.toNat⟩ } ∧
    (∀ j, j < k.toNat → ((queue s).take k.toNat)[j]? = some (memRead s ((s.first.toNat + j) % s.N)) ∧
      ∃ b, ((queue s).take k.toNat)[j]? = some b ∧
        exec (.rbPeek (BitVec.ofNat 16 j)) s = .next { s with rsp := some ⟨.ok, b.setWidth 16, []⟩ })) ∧
  (∀ (k : Half) (s : State), s.port = .C → s.count.toNat < k.toNat →
    exec (.rbPeekf k) s = .next { s with rsp := some ⟨.range, 0, []⟩ })

/-- Stated: R103. -/
def Obligations.RbLenEffect : Prop :=
  encode .rbLen = 0x25000000 ∧
  (∀ s : State, s.port = .C → exec .rbLen s = .next { s with rsp := some ⟨.ok, s.count, []⟩ }) ∧
  (∀ s : State, s.count.toNat = (queue s).length) ∧ (∀ s : State, Invariant s → (queue s).length ≤ s.N)

/-- Stated: R37. The peeks, RB.LEN and CRC.RD change no state and repeat their answer; RB.POP removes exactly the byte it returns, so
it is not idempotent; CRC.UPD of a byte twice is the two-byte message, and it is not idempotent: from CRC = 0x00 the byte 0x01
gives 0x07 and then 0x12. -/
def Obligations.ReadsHaveNoSideEffect : Prop :=
  (∀ (i : Instr) (s : State), s.port = .C →
    (∃ j, i = .rbPeek j) ∨ (∃ k, i = .rbPeekf k) ∨ i = .rbLen ∨ i = .crcRd →
    ∃ t, exec i s = .next t ∧ SameBlock s t ∧ SameFrame s t ∧ exec i t = .next t) ∧
  (∀ s : State, s.port = .C → s.first.toNat < s.N → 0 < s.count.toNat →
    ∃ (t : State) (b : Byte), exec .rbPop s = .next t ∧ queue s = b :: queue t ∧ t.rsp = some ⟨.ok, b.setWidth 16, []⟩ ∧
      queue t ≠ queue s) ∧
  (∀ (b : Byte) (s : State), s.port = .C →
    ∃ t u, exec (.crcUpd b) s = .next t ∧ exec (.crcUpd b) t = .next u ∧ u.crc = crc8Incremental s.crc [b, b]) ∧
  (∀ s : State, s.port = .C → s.crc = 0x00 →
    ∃ t u, exec (.crcUpd 0x01) s = .next t ∧ exec (.crcUpd 0x01) t = .next u ∧ t.crc = 0x07 ∧ u.crc = 0x12) ∧
  (∀ (i : Instr) (s t : State) (r : Response), exec i s = .next t → t.rsp = some r → r.st ≠ .ok → SameBlock s t)

/-- Stated: R132. A failure changes no state and carries nothing but its kind; RB.PUSHD on a full buffer leaves no trace at all. -/
def Obligations.FailureRecordsNothing : Prop :=
  (∀ (w : Word) (s : State), ∃ t r, perform w s = .next t ∧ t.rsp = some r ∧
    (r.st ≠ .ok → r.val = 0 ∧ r.data = [] ∧ SameBlock s t ∧ SameFrame s t)) ∧
  (∀ (v : Byte) (s : State), s.count.toNat = s.N → exec (.rbPushd v) s = .next { s with rsp := some ⟨.ok, 0, []⟩ })

/-- Derived: 60_exceptions.md section 2 (rule R131; its ILLEGAL row is marked decision D6) and section 4 (R137). The exact condition of
each status, for every operation on either port. -/
def Obligations.StatusConditions : Prop :=
  ∀ (i : Instr) (s t : State) (r : Response), Invariant s → exec i s = .next t → t.rsp = some r →
    (r.st = .illegal ↔ admits s.port i = false) ∧
    (r.st = .full ↔ (∃ v, i = .rbPush v) ∧ s.count.toNat = s.N) ∧
    (r.st = .empty ↔ admits s.port i = true ∧ i = .rbPop ∧ s.count = 0) ∧
    (r.st = .range ↔ admits s.port i = true ∧
      ((∃ j, i = .rbPeek j ∧ s.count.toNat ≤ j.toNat) ∨ (∃ k, i = .rbPeekf k ∧ s.count.toNat < k.toNat)))

/-- Derived: 10_state.md section 3 (rule R17) and 41_ringbuffer.md section 4 (rule R104, both marked derived): on the queue view every
operation, on either port, does what the queue machine does, and answers what it answers. -/
def Obligations.QueueMachineRefined : Prop :=
  ∀ (i : Instr) (s : State), s.first.toNat < s.N → s.count.toNat ≤ s.N →
    ∃ t, exec i s = .next t ∧ view t = ((view s).exec s.N s.port i).1 ∧
      t.rsp = some ((view s).exec s.N s.port i).2 ∧ SameFrame s t

/-- Derived: 10_state.md section 3 (rule R17, marked derived): "Two states with the same Q (and the same CRC and IE) cannot be told
apart by any run". -/
def Obligations.LayoutIsUnobservable : Prop :=
  ∀ (n : Nat) (s t s' : State), Invariant s → Invariant t → SameView s t → core.run n s = .next s' →
    ∃ t', core.run n t = .next t' ∧ SameView s' t'

/-- Derived: 10_state.md section 5 (rule R20, marked decision D13): "The unspecified cells of MEM cannot be observed"; log 5. A change
of the free value's argument changes no response and no state. -/
def Obligations.UnspecifiedBytesUnobservable : Prop :=
  ∀ (i : Instr) (s t : State) (e : Nat), Invariant s → exec i s = .next t →
    exec i { s with epoch := e } = .next { t with epoch := e }

/-- Stated: R41. For any stretch of any schedule without a reset event: what was buffered, followed by what was accepted, is what was
popped, followed by what is buffered; from an empty buffer the j-th pop returns the j-th accepted byte. -/
def Obligations.FifoOrderPreserved : Prop :=
  ∀ (n : Nat) (s : State), Invariant s → Turn.reset ∉ s.turns →
    queue s ++ (history n s).1 = (history n s).2.1 ++ queue (history n s).2.2 ∧
    (queue s = [] → ∀ j, j < (history n s).2.1.length → (history n s).2.1[j]? = (history n s).1[j]?)

/-- Derived: 41_ringbuffer.md section 4 (rule R104 item 7, marked derived). -/
def Obligations.CountIsPushesMinusPops : Prop :=
  ∀ (n : Nat) (s : State), Invariant s → Turn.reset ∉ s.turns →
    (history n s).2.2.count.toNat + (history n s).2.1.length = s.count.toNat + (history n s).1.length

/-- Derived: 70_reset_and_hazards.md section 3 (rule R155, marked derived). A step that pops nothing and resets nothing only lets the
queue grow at its tail, so what a sole consumer has seen stays. -/
def Obligations.QueueGrowsAtTailBetweenPops : Prop :=
  ∀ s t : State, Invariant s → step s = .next t → request s ≠ .reset → poppedByte s t = [] →
    ∃ added, queue t = queue s ++ added

/-- Derived: 41_ringbuffer.md section 4 (rule R104 item 5, marked derived), 30_encoding.md section 8 (R63), 70_reset_and_hazards.md
section 3 (R155 item 3). The next k pops return the k oldest bytes in order, whatever the handler does in between. -/
def Obligations.PopsReturnWhatPeekfShowed : Prop :=
  ∀ (s : State) (as : List (List HandlerAction)), Invariant s → as.length ≤ s.count.toNat →
    (popN as s).1 = (queue s).take as.length ∧ (queue s).drop as.length <+: queue (popN as s).2 ∧ Invariant (popN as s).2

/-- Derived: 30_encoding.md section 8 (rule R64, marked decision D21), 20_memory.md section 7 (R43). With any handler actions in the
gaps (log 15), for m below, at and above COUNT, the drain takes and leaves what it takes and leaves on the queue: at most m bytes, at
least those buffered at the start (up to m), and fewer than m only if its last pop answered EMPTY; and with a handler that does
not act, the m oldest. -/
def Obligations.DrainTakesAtMostM : Prop :=
  (∀ (s : State) (as : List (List HandlerAction)), Invariant s →
    (drain as s).1 = (drainQueue s.params s.ie as (queue s)).1 ∧
    queue (drain as s).2 = (drainQueue s.params s.ie as (queue s)).2 ∧
    min as.length s.count.toNat ≤ (drain as s).1.length ∧ (drain as s).1.length ≤ as.length ∧
    ((drain as s).1.length < as.length →
      queue (drain as s).2 = [] ∧ (drain as s).2.rsp = some ⟨.empty, 0, []⟩)) ∧
  (∀ (s : State) (m : Nat), Invariant s →
    (drain (List.replicate m []) s).1 = (queue s).take m ∧ queue (drain (List.replicate m []) s).2 = (queue s).drop m)

/-- Derived: 70_reset_and_hazards.md section 3 (rule R158). A request larger than the capacity never succeeds. -/
def Obligations.OversizedRequestsFail : Prop :=
  ∀ (s : State) (k : Half), Invariant s → s.port = .C →
    (s.N < k.toNat → exec (.rbPeekf k) s = .next { s with rsp := some ⟨.range, 0, []⟩ }) ∧
    (s.N ≤ k.toNat → exec (.rbPeek k) s = .next { s with rsp := some ⟨.range, 0, []⟩ }) ∧
    ∃ (t : State) (r : Response), exec .rbLen s = .next t ∧ t.rsp = some r ∧ r.val.toNat ≤ s.N

/-! ### The critical section -/

/-- Stated: R120. Every ring-buffer operation is the raw operation performed with IE = 0, then the previous IE restored, in one step;
the net effect on IE is none, on either port, and what it does and answers does not depend on IE; an ILLEGAL word does not
touch IE. -/
def Obligations.WrapperRestoresInterruptEnable : Prop :=
  (∀ (v : Byte) (s : State), exec (.rbPush v) s = .next ((rawPush .full v (s.setIe false)).setIe s.ie)) ∧
  (∀ (v : Byte) (s : State), exec (.rbPushd v) s = .next ((rawPush .ok v (s.setIe false)).setIe s.ie)) ∧
  (∀ s : State, s.port = .C → exec .rbPop s = .next ((rawPop (s.setIe false)).setIe s.ie)) ∧
  (∀ (j : Half) (s : State), s.port = .C → exec (.rbPeek j) s = .next ((rawPeek j (s.setIe false)).setIe s.ie)) ∧
  (∀ (k : Half) (s : State), s.port = .C → exec (.rbPeekf k) s = .next ((rawPeekf k (s.setIe false)).setIe s.ie)) ∧
  (∀ s : State, s.port = .C → exec .rbLen s = .next ((rawLen (s.setIe false)).setIe s.ie)) ∧
  (∀ (i : Instr) (s : State), isRb i = true → ∃ t, exec i s = .next t ∧ t.ie = s.ie ∧
    ∀ b : Bool, exec i { s with ie := b } = .next { t with ie := b }) ∧
  (∀ (w : Word) (s t : State), accepts s.port w = false → perform w s = .next t → t.ie = s.ie)

/-- Stated: R122. -/
def Obligations.CsEnterEffect : Prop :=
  encode .csEnter = 0x30000000 ∧
  (∀ s : State, s.port = .C →
    exec .csEnter s = .next { s with ie := false, rsp := some ⟨.ok, (BitVec.ofBool s.ie).setWidth 16, []⟩ }) ∧
  (∀ s : State, s.port = .C → s.ie = false → exec .csEnter s = .next { s with rsp := some ⟨.ok, 0, []⟩ })

/-- Stated: R123. -/
def Obligations.CsExitEffect : Prop :=
  (∀ b : Bool, encode (.csExit b) = 0x31000000 ||| (BitVec.ofBool b).setWidth 32) ∧
  (∀ (b : Bool) (s : State), s.port = .C →
    exec (.csExit b) s = .next { s with ie := b, rsp := some ⟨.ok, 0, []⟩ })

/-- Derived: 42_critical_section.md section 4 (rule R124, marked derived). In a properly nested section IE is 0 whenever the handler may
try to act, no handler action changes anything, every inner CS.ENTER returns 0, and IE after equals IE before. -/
def Obligations.CriticalSectionsNest : Prop :=
  ∀ (body : Nest) (s : State), body.proper = true →
    let e := issue .csEnter s
    let r := body.run e
    (∀ b ∈ r.1, b = false) ∧ (∀ v ∈ r.2.1, v = 0) ∧ (body.quiet.run e).2.2 = r.2.2 ∧
    (issue (.csExit (returnedFlag e)) r.2.2).ie = s.ie

/-- Derived: 30_encoding.md section 5 (rule R56, marked decision D6), 93_implementation_defined.md U10, U11; log 6. The checked run
ends in a next state exactly when the run does and no command performed along it is answered ILLEGAL; where it is refused,
the command it names was presented along the run and answered ILLEGAL. -/
def Obligations.CheckedRunRefusesIllegal : Prop :=
  (∀ (n : Nat) (s t : State), runChecked n s = .next t ↔
    core.run n s = .next t ∧
    ∀ k, k < n → ∀ u u' : State, core.run k s = .next u → ∀ (p : Port) (w : Word), request u = .command p w →
      step u = .next u' → ∃ r : Response, u'.rsp = some r ∧ r.st ≠ .illegal) ∧
  (∀ (n : Nat) (s : State) (p : Port) (w : Word), runChecked n s = .refused (.illegalCommand p w) →
    ∃ (k : Nat) (u u' : State), k < n ∧ core.run k s = .next u ∧ request u = .command p w ∧ step u = .next u' ∧
      u'.rsp = some ⟨.illegal, 0, []⟩)
end

