-- ==== Sys2Proof/Laws/Crc.lean ====
section
/-! SUPPORT. Unit CRC: the table has an entry for every byte, and what a write of CRC leaves alone. -/

namespace Sys2Proof.Machine

/-- The table has 256 entries (R12), so a byte index is always in range (R32). -/
theorem crcTable_length : crcTable.length = 256 := by decide +kernel

theorem TABLE_eq_getElem (i : Byte) : TABLE i = crcTable[i.toNat]'(crcTable_length ▸ i.isLt) :=
  List.getD_eq_getElem _ _ _

/-- Everything a write of CRC does: CRC and the response, nothing else (R83). -/
theorem crcWrite_eq (v : Byte) (s : State) : crcWrite v s = { s with crc := v, rsp := some ⟨.ok, 0, []⟩ } := rfl

end Sys2Proof.Machine
end

