-- ==== Sys2Proof/Laws/Decode.lean ====
section
/-! SUPPORT. The decoder: a word selects at most one row, and decoding is reading that row. -/

namespace Sys2Proof

/-- Every operation fits its format: the operand types carry the bounds (R51). -/
theorem wellFormed_all (i : Instr) : i.wellFormed = true := by
  cases i <;> simp only [Instr.wellFormed, Instr.format, Instr.operand, operandFits, decide_eq_true_eq]
  case crcLd v => exact v.isLt
  case crcUpd b => exact b.isLt
  case rbPush v => exact v.isLt
  case rbPushd v => exact v.isLt
  case rbPeek j => exact j.isLt
  case rbPeekf k => exact k.isLt
  case csExit s => cases s <;> decide

/-- The opcodes of the map are pairwise distinct (R54). -/
theorem opcodeMap_opcs_distinct : opcodeMap.Pairwise fun r q => r.opc ≠ q.opc := by
  decide

/-- A selected row's opcode stands in bits 31:24 of the word: "every mask includes bits 31:24" (R54). -/
theorem wordOPC_of_selects {r : Row} (hr : r ∈ opcodeMap) {w : Word} (h : r.selects w = true) :
    wordOPC w = r.opc := by
  have h : w &&& r.mask = r.pattern := by simpa [Row.selects] using h
  have hm : r.mask.extractLsb' 24 8 = 255#8 ∧ r.pattern.extractLsb' 24 8 = r.opc := by
    simp only [opcodeMap, List.mem_cons, List.not_mem_nil, or_false] at hr
    rcases hr with rfl | rfl | rfl | rfl | rfl | rfl | rfl | rfl | rfl | rfl | rfl | rfl <;> decide
  rw [← hm.2, ← h, BitVec.extractLsb'_and, hm.1]
  exact (BitVec.and_allOnes (x := wordOPC w)).symm

/-- In a list with distinct keys, a row that is selected by a predicate that fixes the key is the one found. -/
theorem find?_eq_of_key {l : List Row} (hd : l.Pairwise fun r q => r.opc ≠ q.opc) {p : Row → Bool} {r : Row}
    (hr : r ∈ l) (hp : p r = true) (hk : ∀ q ∈ l, p q = true → q.opc = r.opc) : l.find? p = some r := by
  induction l with
  | nil => simp at hr
  | cons q l ih =>
    rw [List.pairwise_cons] at hd
    rcases List.mem_cons.1 hr with rfl | hr
    · simp [hp]
    · have hq : p q = false := by
        by_contra hq
        exact hd.1 r hr (hk q List.mem_cons_self (by simpa using hq))
      rw [List.find?_cons_of_neg (by simp [hq])]
      exact ih hd.2 hr fun q' hq' => hk q' (List.mem_cons_of_mem _ hq')

/-- Decoding a word that selects a row reads that row (R55). -/
theorem decode_of_selects {r : Row} (hr : r ∈ opcodeMap) {w : Word} (h : r.selects w = true) :
    decode w = .ok (r.build (wordARG w)) := by
  have : opcodeMap.find? (fun q => q.selects w) = some r :=
    find?_eq_of_key opcodeMap_opcs_distinct hr h fun q hq hs =>
      (wordOPC_of_selects hq hs).symm.trans (wordOPC_of_selects hr h)
  simp [decode, this]

/-- A word that decodes selects a row, and the instruction is that row's (R55). -/
theorem decode_ok {w : Word} {i : Instr} (h : decode w = .ok i) :
    ∃ r ∈ opcodeMap, r.selects w = true ∧ i = r.build (wordARG w) := by
  unfold decode at h
  split at h
  · rename_i r hf
    cases h
    exact ⟨r, List.mem_of_find?_eq_some hf, by simpa using List.find?_some hf, rfl⟩
  · cases h

/-- A word that selects no row does not decode (R56). -/
theorem decode_of_selects_none {w : Word} (h : ∀ r ∈ opcodeMap, r.selects w = false) :
    decode w = .error (illegalReason w) := by
  have : opcodeMap.find? (fun q => q.selects w) = none := by simpa using h
  simp [decode, this]

end Sys2Proof
end

