-- ==== Sys2Proof/Laws/Memory.lean ====
section
/-! SUPPORT. The storage: read after write, and that a write keeps the canonical form and the bound on indices. -/

namespace Sys2Proof.Machine.Memory

@[simp] theorem get?_nil (a : Nat) : Memory.get? [] a = none := rfl

theorem get?_cons (b : Nat) (v : Byte) (m : Memory) (a : Nat) :
    Memory.get? ((b, v) :: m) a = if a = b then some v else Memory.get? m a := rfl

@[simp] theorem get?_set_self (m : Memory) (a : Nat) (v : Byte) : (m.set a v).get? a = some v := by
  induction m with
  | nil => simp [Memory.set, get?_cons]
  | cons c m ih =>
    obtain ⟨b, w⟩ := c
    simp only [Memory.set]
    split_ifs with h₁ h₂ <;> simp_all [get?_cons]

@[simp] theorem get?_set_ne (m : Memory) {a b : Nat} (v : Byte) (h : b ≠ a) :
    (m.set a v).get? b = m.get? b := by
  induction m with
  | nil => simp [Memory.set, get?_cons, h]
  | cons c m ih =>
    obtain ⟨d, w⟩ := c
    simp only [Memory.set]
    split_ifs with h₁ h₂
    · simp [get?_cons, h]
    · subst h₂; simp [get?_cons, h]
    · simp [get?_cons, ih]

/-- The entries after a write: the entry written, and entries that were there. -/
theorem mem_set {m : Memory} {a : Nat} {v : Byte} {c : Host.Cell} (h : c ∈ m.set a v) : c = (a, v) ∨ c ∈ m := by
  induction m with
  | nil => simpa [Memory.set] using h
  | cons d m ih =>
    obtain ⟨b, w⟩ := d
    simp only [Memory.set] at h
    split_ifs at h with h₁ h₂
    · simpa using h
    · rcases List.mem_cons.1 h with h | h
      · exact .inl h
      · exact .inr (List.mem_cons_of_mem _ h)
    · rcases List.mem_cons.1 h with h | h
      · exact .inr (by simp [h])
      · exact (ih h).imp_right (List.mem_cons_of_mem _)

/-- A write keeps the canonical form. -/
theorem wf_set {m : Memory} (a : Nat) (v : Byte) (h : Memory.Wf m) : Memory.Wf (m.set a v) := by
  induction m with
  | nil => simp [Memory.set, Memory.Wf]
  | cons d m ih =>
    obtain ⟨b, w⟩ := d
    simp only [Memory.Wf, List.map_cons, List.pairwise_cons, List.mem_map, forall_exists_index, and_imp,
      forall_apply_eq_imp_iff₂] at h ih ⊢
    obtain ⟨hb, hm⟩ := h
    simp only [Memory.set]
    split_ifs with h₁ h₂
    · simp only [List.map_cons, List.pairwise_cons, List.mem_cons, List.mem_map]
      refine ⟨?_, by simpa using hb, hm⟩
      rintro _ (rfl | ⟨c, hc, rfl⟩)
      · exact h₁
      · exact h₁.trans (hb c hc)
    · subst h₂; simpa using ⟨by simpa using hb, hm⟩
    · simp only [List.map_cons, List.pairwise_cons, List.mem_map, forall_exists_index, and_imp,
        forall_apply_eq_imp_iff₂]
      refine ⟨fun c hc => ?_, ih hm⟩
      rcases mem_set hc with rfl | hc
      · omega
      · exact hb c hc

/-- A cell is listed exactly when some entry has its index. -/
theorem get?_isSome {m : Memory} {a : Nat} : (m.get? a).isSome ↔ ∃ v, (a, v) ∈ m := by
  induction m with
  | nil => simp
  | cons d m ih =>
    obtain ⟨b, w⟩ := d
    rw [get?_cons]
    split_ifs with h
    · subst h; simp
    · simp [ih, h]

/-- In canonical form an entry is what its cell reads as. -/
theorem get?_of_mem {m : Memory} (h : Memory.Wf m) {a : Nat} {v : Byte} (hc : (a, v) ∈ m) : m.get? a = some v := by
  induction m with
  | nil => simp at hc
  | cons d m ih =>
    obtain ⟨b, w⟩ := d
    simp only [Memory.Wf, List.map_cons, List.pairwise_cons, List.mem_map, forall_exists_index, and_imp,
      forall_apply_eq_imp_iff₂] at h ih
    rw [get?_cons]
    rcases List.mem_cons.1 hc with e | e
    · simp only [Prod.mk.injEq] at e; simp [e.1, e.2]
    · have := h.1 _ e
      rw [if_neg (by simpa using Nat.ne_of_gt this)]
      exact ih h.2 e

/-- What a cell reads as is an entry. -/
theorem mem_of_get? {m : Memory} {a : Nat} {v : Byte} (h : m.get? a = some v) : (a, v) ∈ m := by
  induction m with
  | nil => simp at h
  | cons d m ih =>
    obtain ⟨b, w⟩ := d
    rw [get?_cons] at h
    split_ifs at h with e
    · simp_all
    · exact List.mem_cons_of_mem _ (ih h)

/-- Equal memories are equal data: two canonical memories that read alike are the same list. -/
theorem ext_of_get? {m n : Memory} (hm : Memory.Wf m) (hn : Memory.Wf n) (h : ∀ a, m.get? a = n.get? a) : m = n := by
  have sm : m.Pairwise fun c d => c.1 < d.1 := by simpa [Memory.Wf, List.pairwise_map] using hm
  have sn : n.Pairwise fun c d => c.1 < d.1 := by simpa [Memory.Wf, List.pairwise_map] using hn
  have key : ∀ c, c ∈ m ↔ c ∈ n := fun ⟨a, v⟩ =>
    ⟨fun hc => mem_of_get? ((h a).symm.trans (get?_of_mem hm hc)),
     fun hc => mem_of_get? ((h a).trans (get?_of_mem hn hc))⟩
  have nm : m.Nodup := sm.imp fun h e => by subst e; exact lt_irrefl _ h
  have nn : n.Nodup := sn.imp fun h e => by subst e; exact lt_irrefl _ h
  exact List.Perm.eq_of_pairwise (fun a b _ _ h₁ h₂ => absurd h₁ (Nat.lt_asymm h₂)) sm sn
    ((List.perm_ext_iff_of_nodup nm nn).2 key)

end Sys2Proof.Machine.Memory
end

