-- ==== Sys2Proof/Laws/State.lean ====
section
/-! SUPPORT. One lemma per field and update of State, true by rfl, so that no proof unfolds a record update. -/

namespace Sys2Proof.Machine.State

variable (s : State) (p : Parameters)

@[simp] theorem setCrc_crc (x : Byte) : (s.setCrc x).crc = x := rfl
@[simp] theorem setCrc_mem (x : Byte) : (s.setCrc x).mem = s.mem := rfl
@[simp] theorem setCrc_first (x : Byte) : (s.setCrc x).first = s.first := rfl
@[simp] theorem setCrc_count (x : Byte) : (s.setCrc x).count = s.count := rfl
@[simp] theorem setCrc_ie (x : Byte) : (s.setCrc x).ie = s.ie := rfl
@[simp] theorem setCrc_params (x : Byte) : (s.setCrc x).params = s.params := rfl
@[simp] theorem setCrc_epoch (x : Byte) : (s.setCrc x).epoch = s.epoch := rfl
@[simp] theorem setCrc_turns (x : Byte) : (s.setCrc x).turns = s.turns := rfl
@[simp] theorem setCrc_cQueue (x : Byte) : (s.setCrc x).cQueue = s.cQueue := rfl
@[simp] theorem setCrc_pQueue (x : Byte) : (s.setCrc x).pQueue = s.pQueue := rfl
@[simp] theorem setCrc_port (x : Byte) : (s.setCrc x).port = s.port := rfl
@[simp] theorem setCrc_rsp (x : Byte) : (s.setCrc x).rsp = s.rsp := rfl

@[simp] theorem setMem_crc (x : Memory) : (s.setMem x).crc = s.crc := rfl
@[simp] theorem setMem_mem (x : Memory) : (s.setMem x).mem = x := rfl
@[simp] theorem setMem_first (x : Memory) : (s.setMem x).first = s.first := rfl
@[simp] theorem setMem_count (x : Memory) : (s.setMem x).count = s.count := rfl
@[simp] theorem setMem_ie (x : Memory) : (s.setMem x).ie = s.ie := rfl
@[simp] theorem setMem_params (x : Memory) : (s.setMem x).params = s.params := rfl
@[simp] theorem setMem_epoch (x : Memory) : (s.setMem x).epoch = s.epoch := rfl
@[simp] theorem setMem_turns (x : Memory) : (s.setMem x).turns = s.turns := rfl
@[simp] theorem setMem_cQueue (x : Memory) : (s.setMem x).cQueue = s.cQueue := rfl
@[simp] theorem setMem_pQueue (x : Memory) : (s.setMem x).pQueue = s.pQueue := rfl
@[simp] theorem setMem_port (x : Memory) : (s.setMem x).port = s.port := rfl
@[simp] theorem setMem_rsp (x : Memory) : (s.setMem x).rsp = s.rsp := rfl

@[simp] theorem setFirst_crc (x : Half) : (s.setFirst x).crc = s.crc := rfl
@[simp] theorem setFirst_mem (x : Half) : (s.setFirst x).mem = s.mem := rfl
@[simp] theorem setFirst_first (x : Half) : (s.setFirst x).first = x := rfl
@[simp] theorem setFirst_count (x : Half) : (s.setFirst x).count = s.count := rfl
@[simp] theorem setFirst_ie (x : Half) : (s.setFirst x).ie = s.ie := rfl
@[simp] theorem setFirst_params (x : Half) : (s.setFirst x).params = s.params := rfl
@[simp] theorem setFirst_epoch (x : Half) : (s.setFirst x).epoch = s.epoch := rfl
@[simp] theorem setFirst_turns (x : Half) : (s.setFirst x).turns = s.turns := rfl
@[simp] theorem setFirst_cQueue (x : Half) : (s.setFirst x).cQueue = s.cQueue := rfl
@[simp] theorem setFirst_pQueue (x : Half) : (s.setFirst x).pQueue = s.pQueue := rfl
@[simp] theorem setFirst_port (x : Half) : (s.setFirst x).port = s.port := rfl
@[simp] theorem setFirst_rsp (x : Half) : (s.setFirst x).rsp = s.rsp := rfl

@[simp] theorem setCount_crc (x : Half) : (s.setCount x).crc = s.crc := rfl
@[simp] theorem setCount_mem (x : Half) : (s.setCount x).mem = s.mem := rfl
@[simp] theorem setCount_first (x : Half) : (s.setCount x).first = s.first := rfl
@[simp] theorem setCount_count (x : Half) : (s.setCount x).count = x := rfl
@[simp] theorem setCount_ie (x : Half) : (s.setCount x).ie = s.ie := rfl
@[simp] theorem setCount_params (x : Half) : (s.setCount x).params = s.params := rfl
@[simp] theorem setCount_epoch (x : Half) : (s.setCount x).epoch = s.epoch := rfl
@[simp] theorem setCount_turns (x : Half) : (s.setCount x).turns = s.turns := rfl
@[simp] theorem setCount_cQueue (x : Half) : (s.setCount x).cQueue = s.cQueue := rfl
@[simp] theorem setCount_pQueue (x : Half) : (s.setCount x).pQueue = s.pQueue := rfl
@[simp] theorem setCount_port (x : Half) : (s.setCount x).port = s.port := rfl
@[simp] theorem setCount_rsp (x : Half) : (s.setCount x).rsp = s.rsp := rfl

@[simp] theorem setIe_crc (x : Bool) : (s.setIe x).crc = s.crc := rfl
@[simp] theorem setIe_mem (x : Bool) : (s.setIe x).mem = s.mem := rfl
@[simp] theorem setIe_first (x : Bool) : (s.setIe x).first = s.first := rfl
@[simp] theorem setIe_count (x : Bool) : (s.setIe x).count = s.count := rfl
@[simp] theorem setIe_ie (x : Bool) : (s.setIe x).ie = x := rfl
@[simp] theorem setIe_params (x : Bool) : (s.setIe x).params = s.params := rfl
@[simp] theorem setIe_epoch (x : Bool) : (s.setIe x).epoch = s.epoch := rfl
@[simp] theorem setIe_turns (x : Bool) : (s.setIe x).turns = s.turns := rfl
@[simp] theorem setIe_cQueue (x : Bool) : (s.setIe x).cQueue = s.cQueue := rfl
@[simp] theorem setIe_pQueue (x : Bool) : (s.setIe x).pQueue = s.pQueue := rfl
@[simp] theorem setIe_port (x : Bool) : (s.setIe x).port = s.port := rfl
@[simp] theorem setIe_rsp (x : Bool) : (s.setIe x).rsp = s.rsp := rfl

@[simp] theorem setTurns_crc (x : List Turn) : (s.setTurns x).crc = s.crc := rfl
@[simp] theorem setTurns_mem (x : List Turn) : (s.setTurns x).mem = s.mem := rfl
@[simp] theorem setTurns_first (x : List Turn) : (s.setTurns x).first = s.first := rfl
@[simp] theorem setTurns_count (x : List Turn) : (s.setTurns x).count = s.count := rfl
@[simp] theorem setTurns_ie (x : List Turn) : (s.setTurns x).ie = s.ie := rfl
@[simp] theorem setTurns_params (x : List Turn) : (s.setTurns x).params = s.params := rfl
@[simp] theorem setTurns_epoch (x : List Turn) : (s.setTurns x).epoch = s.epoch := rfl
@[simp] theorem setTurns_turns (x : List Turn) : (s.setTurns x).turns = x := rfl
@[simp] theorem setTurns_cQueue (x : List Turn) : (s.setTurns x).cQueue = s.cQueue := rfl
@[simp] theorem setTurns_pQueue (x : List Turn) : (s.setTurns x).pQueue = s.pQueue := rfl
@[simp] theorem setTurns_port (x : List Turn) : (s.setTurns x).port = s.port := rfl
@[simp] theorem setTurns_rsp (x : List Turn) : (s.setTurns x).rsp = s.rsp := rfl

@[simp] theorem setCQueue_crc (x : List Word) : (s.setCQueue x).crc = s.crc := rfl
@[simp] theorem setCQueue_mem (x : List Word) : (s.setCQueue x).mem = s.mem := rfl
@[simp] theorem setCQueue_first (x : List Word) : (s.setCQueue x).first = s.first := rfl
@[simp] theorem setCQueue_count (x : List Word) : (s.setCQueue x).count = s.count := rfl
@[simp] theorem setCQueue_ie (x : List Word) : (s.setCQueue x).ie = s.ie := rfl
@[simp] theorem setCQueue_params (x : List Word) : (s.setCQueue x).params = s.params := rfl
@[simp] theorem setCQueue_epoch (x : List Word) : (s.setCQueue x).epoch = s.epoch := rfl
@[simp] theorem setCQueue_turns (x : List Word) : (s.setCQueue x).turns = s.turns := rfl
@[simp] theorem setCQueue_cQueue (x : List Word) : (s.setCQueue x).cQueue = x := rfl
@[simp] theorem setCQueue_pQueue (x : List Word) : (s.setCQueue x).pQueue = s.pQueue := rfl
@[simp] theorem setCQueue_port (x : List Word) : (s.setCQueue x).port = s.port := rfl
@[simp] theorem setCQueue_rsp (x : List Word) : (s.setCQueue x).rsp = s.rsp := rfl

@[simp] theorem setPQueue_crc (x : List HandlerAction) : (s.setPQueue x).crc = s.crc := rfl
@[simp] theorem setPQueue_mem (x : List HandlerAction) : (s.setPQueue x).mem = s.mem := rfl
@[simp] theorem setPQueue_first (x : List HandlerAction) : (s.setPQueue x).first = s.first := rfl
@[simp] theorem setPQueue_count (x : List HandlerAction) : (s.setPQueue x).count = s.count := rfl
@[simp] theorem setPQueue_ie (x : List HandlerAction) : (s.setPQueue x).ie = s.ie := rfl
@[simp] theorem setPQueue_params (x : List HandlerAction) : (s.setPQueue x).params = s.params := rfl
@[simp] theorem setPQueue_epoch (x : List HandlerAction) : (s.setPQueue x).epoch = s.epoch := rfl
@[simp] theorem setPQueue_turns (x : List HandlerAction) : (s.setPQueue x).turns = s.turns := rfl
@[simp] theorem setPQueue_cQueue (x : List HandlerAction) : (s.setPQueue x).cQueue = s.cQueue := rfl
@[simp] theorem setPQueue_pQueue (x : List HandlerAction) : (s.setPQueue x).pQueue = x := rfl
@[simp] theorem setPQueue_port (x : List HandlerAction) : (s.setPQueue x).port = s.port := rfl
@[simp] theorem setPQueue_rsp (x : List HandlerAction) : (s.setPQueue x).rsp = s.rsp := rfl

@[simp] theorem setPort_crc (x : Port) : (s.setPort x).crc = s.crc := rfl
@[simp] theorem setPort_mem (x : Port) : (s.setPort x).mem = s.mem := rfl
@[simp] theorem setPort_first (x : Port) : (s.setPort x).first = s.first := rfl
@[simp] theorem setPort_count (x : Port) : (s.setPort x).count = s.count := rfl
@[simp] theorem setPort_ie (x : Port) : (s.setPort x).ie = s.ie := rfl
@[simp] theorem setPort_params (x : Port) : (s.setPort x).params = s.params := rfl
@[simp] theorem setPort_epoch (x : Port) : (s.setPort x).epoch = s.epoch := rfl
@[simp] theorem setPort_turns (x : Port) : (s.setPort x).turns = s.turns := rfl
@[simp] theorem setPort_cQueue (x : Port) : (s.setPort x).cQueue = s.cQueue := rfl
@[simp] theorem setPort_pQueue (x : Port) : (s.setPort x).pQueue = s.pQueue := rfl
@[simp] theorem setPort_port (x : Port) : (s.setPort x).port = x := rfl
@[simp] theorem setPort_rsp (x : Port) : (s.setPort x).rsp = s.rsp := rfl

@[simp] theorem setRsp_crc (x : Option Response) : (s.setRsp x).crc = s.crc := rfl
@[simp] theorem setRsp_mem (x : Option Response) : (s.setRsp x).mem = s.mem := rfl
@[simp] theorem setRsp_first (x : Option Response) : (s.setRsp x).first = s.first := rfl
@[simp] theorem setRsp_count (x : Option Response) : (s.setRsp x).count = s.count := rfl
@[simp] theorem setRsp_ie (x : Option Response) : (s.setRsp x).ie = s.ie := rfl
@[simp] theorem setRsp_params (x : Option Response) : (s.setRsp x).params = s.params := rfl
@[simp] theorem setRsp_epoch (x : Option Response) : (s.setRsp x).epoch = s.epoch := rfl
@[simp] theorem setRsp_turns (x : Option Response) : (s.setRsp x).turns = s.turns := rfl
@[simp] theorem setRsp_cQueue (x : Option Response) : (s.setRsp x).cQueue = s.cQueue := rfl
@[simp] theorem setRsp_pQueue (x : Option Response) : (s.setRsp x).pQueue = s.pQueue := rfl
@[simp] theorem setRsp_port (x : Option Response) : (s.setRsp x).port = s.port := rfl
@[simp] theorem setRsp_rsp (x : Option Response) : (s.setRsp x).rsp = x := rfl

@[simp] theorem setIe_self : s.setIe s.ie = s := rfl
@[simp] theorem setPort_self : s.setPort s.port = s := rfl
@[simp] theorem resetWith_params : (resetWith p).params = p := rfl
@[simp] theorem resetWith_first : (resetWith p).first = 0 := rfl
@[simp] theorem resetWith_count : (resetWith p).count = 0 := rfl
@[simp] theorem resetWith_mem : (resetWith p).mem = [] := rfl

/-- The capacity is at least 1 (R5). -/
theorem N_pos : 0 < s.N := Nat.succ_pos _

/-- The capacity is at most 65535 (R5). -/
theorem N_le : s.N ≤ 65535 := s.params.nPred.isLt

end Sys2Proof.Machine.State
end

