-- ==== Sys2Proof/Laws/Ops.lean ====
section
/-! SUPPORT. What each shared operation does: a response writes nothing else, a cell write changes one cell, the wrapper's net
effect on IE is none, admission performs or answers ILLEGAL. -/

namespace Sys2Proof.Machine

variable (st : Status) (val : Half) (data : List Byte) (s : State)

@[simp] theorem respond_crc : (respond st val data s).crc = s.crc := rfl
@[simp] theorem respond_mem : (respond st val data s).mem = s.mem := rfl
@[simp] theorem respond_first : (respond st val data s).first = s.first := rfl
@[simp] theorem respond_count : (respond st val data s).count = s.count := rfl
@[simp] theorem respond_ie : (respond st val data s).ie = s.ie := rfl
@[simp] theorem respond_params : (respond st val data s).params = s.params := rfl
@[simp] theorem respond_epoch : (respond st val data s).epoch = s.epoch := rfl
@[simp] theorem respond_turns : (respond st val data s).turns = s.turns := rfl
@[simp] theorem respond_cQueue : (respond st val data s).cQueue = s.cQueue := rfl
@[simp] theorem respond_pQueue : (respond st val data s).pQueue = s.pQueue := rfl
@[simp] theorem respond_port : (respond st val data s).port = s.port := rfl

@[simp] theorem succeed_crc : (succeed val s).crc = s.crc := rfl
@[simp] theorem succeed_mem : (succeed val s).mem = s.mem := rfl
@[simp] theorem succeed_first : (succeed val s).first = s.first := rfl
@[simp] theorem succeed_count : (succeed val s).count = s.count := rfl
@[simp] theorem succeed_ie : (succeed val s).ie = s.ie := rfl
@[simp] theorem succeed_params : (succeed val s).params = s.params := rfl
@[simp] theorem succeed_epoch : (succeed val s).epoch = s.epoch := rfl
@[simp] theorem succeed_turns : (succeed val s).turns = s.turns := rfl
@[simp] theorem succeed_cQueue : (succeed val s).cQueue = s.cQueue := rfl
@[simp] theorem succeed_pQueue : (succeed val s).pQueue = s.pQueue := rfl
@[simp] theorem succeed_port : (succeed val s).port = s.port := rfl

@[simp] theorem fail_crc : (fail st s).crc = s.crc := rfl
@[simp] theorem fail_mem : (fail st s).mem = s.mem := rfl
@[simp] theorem fail_first : (fail st s).first = s.first := rfl
@[simp] theorem fail_count : (fail st s).count = s.count := rfl
@[simp] theorem fail_ie : (fail st s).ie = s.ie := rfl
@[simp] theorem fail_params : (fail st s).params = s.params := rfl
@[simp] theorem fail_epoch : (fail st s).epoch = s.epoch := rfl
@[simp] theorem fail_turns : (fail st s).turns = s.turns := rfl
@[simp] theorem fail_cQueue : (fail st s).cQueue = s.cQueue := rfl
@[simp] theorem fail_pQueue : (fail st s).pQueue = s.pQueue := rfl
@[simp] theorem fail_port : (fail st s).port = s.port := rfl

@[simp] theorem respond_rsp : (respond st val data s).rsp = some ⟨st, val, data⟩ := rfl
@[simp] theorem succeed_rsp : (succeed val s).rsp = some ⟨.ok, val, []⟩ := rfl
@[simp] theorem fail_rsp : (fail st s).rsp = some ⟨st, 0, []⟩ := rfl

@[simp] theorem memWrite_crc (a : Nat) (v : Byte) : (memWrite s a v).crc = s.crc := rfl
@[simp] theorem memWrite_first (a : Nat) (v : Byte) : (memWrite s a v).first = s.first := rfl
@[simp] theorem memWrite_count (a : Nat) (v : Byte) : (memWrite s a v).count = s.count := rfl
@[simp] theorem memWrite_ie (a : Nat) (v : Byte) : (memWrite s a v).ie = s.ie := rfl
@[simp] theorem memWrite_params (a : Nat) (v : Byte) : (memWrite s a v).params = s.params := rfl
@[simp] theorem memWrite_epoch (a : Nat) (v : Byte) : (memWrite s a v).epoch = s.epoch := rfl
@[simp] theorem memWrite_turns (a : Nat) (v : Byte) : (memWrite s a v).turns = s.turns := rfl
@[simp] theorem memWrite_cQueue (a : Nat) (v : Byte) : (memWrite s a v).cQueue = s.cQueue := rfl
@[simp] theorem memWrite_pQueue (a : Nat) (v : Byte) : (memWrite s a v).pQueue = s.pQueue := rfl
@[simp] theorem memWrite_port (a : Nat) (v : Byte) : (memWrite s a v).port = s.port := rfl
@[simp] theorem memWrite_rsp (a : Nat) (v : Byte) : (memWrite s a v).rsp = s.rsp := rfl
@[simp] theorem memWrite_mem (a : Nat) (v : Byte) : (memWrite s a v).mem = s.mem.set a v := rfl

@[simp] theorem memRead_memWrite_self (a : Nat) (v : Byte) : memRead (memWrite s a v) a = v := by simp [memRead]

theorem memRead_memWrite_ne {a b : Nat} (v : Byte) (h : b ≠ a) : memRead (memWrite s a v) b = memRead s b := by
  simp [memRead, h]

/-- A read depends on the storage and the count of reset events alone. -/
theorem memRead_congr {s t : State} (hm : t.mem = s.mem) (he : t.epoch = s.epoch) (a : Nat) :
    memRead t a = memRead s a := by simp [memRead, hm, he]

/-- A physical index depends on FIRST and the parameters alone. -/
theorem ringIndex_congr {s t : State} (hf : t.first = s.first) (hp : t.params = s.params) (j : Nat) :
    ringIndex t j = ringIndex s j := by simp [ringIndex, State.N, hf, hp]

/-- The oldest bytes depend on the storage, FIRST, the parameters and the count of reset events alone. -/
theorem oldest_congr {s t : State} (hm : t.mem = s.mem) (hf : t.first = s.first) (hp : t.params = s.params)
    (he : t.epoch = s.epoch) (k : Nat) : oldest t k = oldest s k := by
  simp [oldest, memRead_congr hm he, ringIndex_congr hf hp]

/-- The queue depends on the storage, FIRST, COUNT, the parameters and the count of reset events alone. -/
theorem queue_congr {s t : State} (hm : t.mem = s.mem) (hf : t.first = s.first) (hc : t.count = s.count)
    (hp : t.params = s.params) (he : t.epoch = s.epoch) : queue t = queue s := by
  simp [queue, hc, oldest_congr hm hf hp he]

/-- Admission on a port that admits the operation performs it (R55). -/
theorem admitted_of {i : Instr} {s : State} {body : State → State} (h : admits s.port i = true) :
    admitted i s body = .next (body s) := by simp [admitted, h]

/-- Admission on a port that does not admit the operation answers ILLEGAL (R58). -/
theorem admitted_of_not {i : Instr} {s : State} {body : State → State} (h : admits s.port i = false) :
    admitted i s body = .next (fail .illegal s) := by simp [admitted, h]

/-- Everything `admitted` can do. -/
theorem admitted_cases {i : Instr} {s t : State} {body : State → State} (h : admitted i s body = .next t) :
    (admits s.port i = true ∧ t = body s) ∨ (admits s.port i = false ∧ t = fail .illegal s) := by
  cases hp : admits s.port i with
  | true => rw [admitted_of hp] at h; cases h; exact .inl ⟨rfl, rfl⟩
  | false => rw [admitted_of_not hp] at h; cases h; exact .inr ⟨rfl, rfl⟩

/-- The wrapper restores IE (R120). -/
@[simp] theorem wrapped_ie (raw : State → State) : (wrapped raw s).ie = s.ie := rfl

/-- A raw operation that passes IE through runs in the wrapper as it runs alone. -/
theorem wrapped_eq {raw : State → State} (h : ∀ b, raw (s.setIe b) = (raw s).setIe b) (hi : (raw s).ie = s.ie) :
    wrapped raw s = raw s := by
  simp only [wrapped, h]
  show (raw s).setIe s.ie = raw s
  rw [← hi]; rfl

end Sys2Proof.Machine
end

