-- ==== Sys2Proof/Laws/Ring.lean ====
section
/-! SUPPORT. The ring: physical indices, the queue view, and what an append and a removal do to it. -/

namespace Sys2Proof.Machine

variable (s : State)

theorem ringIndex_lt (j : Nat) : ringIndex s j < s.N := Nat.mod_lt _ s.N_pos

/-- Distinct logical indices below N are distinct cells. -/
theorem ringIndex_inj {j k : Nat} (hj : j < s.N) (hk : k < s.N) (h : ringIndex s j = ringIndex s k) : j = k := by
  have h' : j ≡ k [MOD s.N] := Nat.ModEq.add_left_cancel' s.first.toNat h
  simpa [Nat.ModEq, Nat.mod_eq_of_lt hj, Nat.mod_eq_of_lt hk] using h'

/-- Logical index 0 is the cell FIRST. -/
theorem ringIndex_zero (h : s.first.toNat < s.N) : ringIndex s 0 = s.first.toNat := Nat.mod_eq_of_lt h

/-- The reduction modulo N of an index sum below 2N is one conditional subtraction (R33). -/
theorem ringIndex_eq_ite {j : Nat} (h : s.first.toNat + j < 2 * s.N) :
    ringIndex s j = if s.first.toNat + j < s.N then s.first.toNat + j else s.first.toNat + j - s.N := by
  unfold ringIndex
  split_ifs with h₁
  · exact Nat.mod_eq_of_lt h₁
  · rw [Nat.mod_eq_sub_mod (by omega), Nat.mod_eq_of_lt (by omega)]

theorem nextFirst_toNat : (nextFirst s).toNat = ringIndex s 1 := by
  have h₁ := ringIndex_lt s 1
  have h₂ := s.N_le
  simp only [nextFirst, BitVec.toNat_ofNat]
  exact Nat.mod_eq_of_lt (by omega)

/-- After an advance of FIRST the logical indices have moved down by one. -/
theorem ringIndex_setFirst_next (j : Nat) : ringIndex (s.setFirst (nextFirst s)) j = ringIndex s (j + 1) := by
  show ((nextFirst s).toNat + j) % s.N = (s.first.toNat + (j + 1)) % s.N
  rw [nextFirst_toNat, ringIndex, Nat.mod_add_mod]
  congr 1; omega

@[simp] theorem oldest_zero : oldest s 0 = [] := rfl

@[simp] theorem oldest_length (k : Nat) : (oldest s k).length = k := by simp [oldest]

theorem oldest_succ (k : Nat) : oldest s (k + 1) = oldest s k ++ [memRead s (ringIndex s k)] := by
  simp [oldest, List.range_succ]

theorem oldest_getElem? {j k : Nat} (h : j < k) : (oldest s k)[j]? = some (memRead s (ringIndex s j)) := by
  simp [oldest, h]

/-- The k oldest bytes are the front of the queue (R101). -/
theorem oldest_eq_take {k : Nat} (h : k ≤ s.count.toNat) : oldest s k = (queue s).take k := by
  simp only [queue, oldest, ← List.map_take, List.take_range, Nat.min_eq_left h]

@[simp] theorem queue_length : (queue s).length = s.count.toNat := by simp [queue]

theorem queue_getElem? {j : Nat} (h : j < s.count.toNat) : (queue s)[j]? = some (memRead s (ringIndex s j)) :=
  oldest_getElem? s h

theorem queue_getElem?_none {j : Nat} (h : s.count.toNat ≤ j) : (queue s)[j]? = none := by
  simpa using h

theorem succ_toNat {c : Half} {n : Nat} (h : c.toNat < n) (hn : n ≤ 65535) : (c + 1).toNat = c.toNat + 1 := by
  have : (1 : Half).toNat = 1 := rfl
  rw [BitVec.toNat_add]; omega

theorem pred_toNat {c : Half} (h : 0 < c.toNat) : (c - 1).toNat = c.toNat - 1 := by
  have := c.isLt
  have : (1 : Half).toNat = 1 := rfl
  rw [BitVec.toNat_sub]; omega

theorem append_count {v : Byte} (h : s.count.toNat < s.N) : (append v s).count.toNat = s.count.toNat + 1 :=
  succ_toNat h s.N_le

/-- An append reads as before at every cell but the write index. -/
theorem memRead_append_ne {v : Byte} {a : Nat} (h : a ≠ writeIndex s) : memRead (append v s) a = memRead s a :=
  memRead_memWrite_ne s v h

@[simp] theorem memRead_append_self (v : Byte) : memRead (append v s) (writeIndex s) = v :=
  memRead_memWrite_self s _ v

/-- An append adds its byte at the tail of the queue (R93, R104 item 1). -/
theorem queue_append (v : Byte) (h : s.count.toNat < s.N) : queue (append v s) = queue s ++ [v] := by
  rw [queue, append_count s h, oldest_succ]
  congr 1
  · apply List.map_congr_left
    intro j hj
    have hj := List.mem_range.1 hj
    exact memRead_append_ne s fun e => absurd (ringIndex_inj s (by omega) h e) (by omega)
  · exact congrArg (fun b => [b]) (memRead_append_self s v)

/-- The state after a removal: FIRST advanced, COUNT lowered (R97). -/
abbrev removed : State := (s.setFirst (nextFirst s)).setCount (s.count - 1)

/-- A removal takes the byte at the head of the queue (R97, R104 item 2). -/
theorem queue_eq_cons (hf : s.first.toNat < s.N) (h : 0 < s.count.toNat) :
    queue s = memRead s s.first.toNat :: queue (removed s) := by
  have e : s.count.toNat = (s.count - 1).toNat + 1 := by rw [pred_toNat h]; omega
  rw [queue, e, oldest, List.range_succ_eq_map, List.map_cons, List.map_map]
  congr 1
  · rw [ringIndex_zero s hf]
  · apply List.map_congr_left
    intro j _
    exact congrArg (memRead s) (ringIndex_setFirst_next s j).symm

/-- An accepted push (R93, R95). -/
theorem rawPush_of_lt (st : Status) (v : Byte) {s : State} (h : s.count.toNat < s.N) :
    rawPush st v s = succeed 0 (append v s) := if_pos h

/-- A push that finds the buffer full (R91). -/
theorem rawPush_of_not_lt (st : Status) (v : Byte) {s : State} (h : ¬ s.count.toNat < s.N) :
    rawPush st v s = fail st s := if_neg h

/-- An accepted pop (R97). -/
theorem rawPop_of_pos {s : State} (h : 0 < s.count.toNat) :
    rawPop s = succeed (zextByte (memRead s s.first.toNat)) (removed s) := if_pos h

/-- A pop that finds the buffer empty (R97). -/
theorem rawPop_of_not_pos {s : State} (h : ¬ 0 < s.count.toNat) : rawPop s = fail .empty s := if_neg h

/-- A peek inside the queue (R99). -/
theorem rawPeek_of_lt {idx : Half} {s : State} (h : idx.toNat < s.count.toNat) :
    rawPeek idx s = succeed (zextByte (memRead s (ringIndex s idx.toNat))) s := if_pos h

/-- A peek beyond the queue (R99). -/
theorem rawPeek_of_not_lt {idx : Half} {s : State} (h : ¬ idx.toNat < s.count.toNat) :
    rawPeek idx s = fail .range s := if_neg h

/-- A peek-fill of buffered bytes (R101). -/
theorem rawPeekf_of_le {k : Half} {s : State} (h : k.toNat ≤ s.count.toNat) :
    rawPeekf k s = respond .ok k (oldest s k.toNat) s := if_pos h

/-- A peek-fill of more bytes than are buffered (R101). -/
theorem rawPeekf_of_not_le {k : Half} {s : State} (h : ¬ k.toNat ≤ s.count.toNat) :
    rawPeekf k s = fail .range s := if_neg h

end Sys2Proof.Machine
end

