-- ==== Sys2Proof/Laws/Exec.lean ====
section
/-! SUPPORT. What `exec` answers, said once: on a port that admits the operation, the operation's own effect with the wrapper
taken away; on one that does not, ILLEGAL. -/

namespace Sys2Proof.Machine

variable (s : State)

/-- The effect of an admitted operation, without the wrapper. -/
def effect : Instr → State → State
  | .crcClr, s => crcWrite 0x00 s
  | .crcLd v, s => crcWrite v s
  | .crcUpd b, s => crcWrite (TABLE (s.crc ^^^ b)) s
  | .crcRd, s => succeed (zextByte s.crc) s
  | .rbPush v, s => rawPush .full v s
  | .rbPushd v, s => rawPush .ok v s
  | .rbPop, s => rawPop s
  | .rbPeek idx, s => rawPeek idx s
  | .rbPeekf k, s => rawPeekf k s
  | .rbLen, s => rawLen s
  | .csEnter, s => succeed (zextFlag s.ie) (s.setIe false)
  | .csExit flag, s => succeed 0 (s.setIe flag)

theorem rawPush_setIe (st : Status) (v : Byte) (b : Bool) : rawPush st v (s.setIe b) = (rawPush st v s).setIe b := by
  by_cases h : s.count.toNat < s.N
  · rw [rawPush_of_lt st v h, rawPush_of_lt st v (s := s.setIe b) h]; rfl
  · rw [rawPush_of_not_lt st v h, rawPush_of_not_lt st v (s := s.setIe b) h]; rfl

theorem rawPop_setIe (b : Bool) : rawPop (s.setIe b) = (rawPop s).setIe b := by
  by_cases h : 0 < s.count.toNat
  · rw [rawPop_of_pos h, rawPop_of_pos (s := s.setIe b) h]; rfl
  · rw [rawPop_of_not_pos h, rawPop_of_not_pos (s := s.setIe b) h]; rfl

theorem rawPeek_setIe (idx : Half) (b : Bool) : rawPeek idx (s.setIe b) = (rawPeek idx s).setIe b := by
  by_cases h : idx.toNat < s.count.toNat
  · rw [rawPeek_of_lt h, rawPeek_of_lt (s := s.setIe b) h]; rfl
  · rw [rawPeek_of_not_lt h, rawPeek_of_not_lt (s := s.setIe b) h]; rfl

theorem rawPeekf_setIe (k : Half) (b : Bool) : rawPeekf k (s.setIe b) = (rawPeekf k s).setIe b := by
  by_cases h : k.toNat ≤ s.count.toNat
  · rw [rawPeekf_of_le h, rawPeekf_of_le (s := s.setIe b) h]; rfl
  · rw [rawPeekf_of_not_le h, rawPeekf_of_not_le (s := s.setIe b) h]; rfl

theorem rawLen_setIe (b : Bool) : rawLen (s.setIe b) = (rawLen s).setIe b := rfl

@[simp] theorem rawPush_ie (st : Status) (v : Byte) : (rawPush st v s).ie = s.ie := by
  unfold rawPush; split_ifs <;> rfl

@[simp] theorem rawPop_ie : (rawPop s).ie = s.ie := by unfold rawPop; split_ifs <;> rfl

@[simp] theorem rawPeek_ie (idx : Half) : (rawPeek idx s).ie = s.ie := by unfold rawPeek; split_ifs <;> rfl

@[simp] theorem rawPeekf_ie (k : Half) : (rawPeekf k s).ie = s.ie := by unfold rawPeekf; split_ifs <;> rfl

@[simp] theorem rawLen_ie : (rawLen s).ie = s.ie := rfl

/-- Everything `exec` can do: `effect`, or `fail ILLEGAL`, by admission. -/
theorem exec_eq (i : Instr) :
    exec i s = if admits s.port i then .next (effect i s) else .next (fail .illegal s) := by
  cases i with
  | crcClr => rfl
  | crcLd v => rfl
  | crcUpd b => rfl
  | crcRd => rfl
  | rbPush v => exact congrArg (admitted (.rbPush v) s) (funext fun t => wrapped_eq t (rawPush_setIe t .full v) (by simp))
  | rbPushd v => exact congrArg (admitted (.rbPushd v) s) (funext fun t => wrapped_eq t (rawPush_setIe t .ok v) (by simp))
  | rbPop => exact congrArg (admitted .rbPop s) (funext fun t => wrapped_eq t (rawPop_setIe t) (by simp))
  | rbPeek idx => exact congrArg (admitted (.rbPeek idx) s) (funext fun t => wrapped_eq t (rawPeek_setIe t idx) (by simp))
  | rbPeekf k => exact congrArg (admitted (.rbPeekf k) s) (funext fun t => wrapped_eq t (rawPeekf_setIe t k) (by simp))
  | rbLen => exact congrArg (admitted .rbLen s) (funext fun t => wrapped_eq t (rawLen_setIe t) (by simp))
  | csEnter => rfl
  | csExit flag => rfl

theorem exec_of {i : Instr} {s : State} (h : admits s.port i = true) : exec i s = .next (effect i s) := by
  rw [exec_eq, if_pos h]

theorem exec_of_not {i : Instr} {s : State} (h : admits s.port i = false) : exec i s = .next (fail .illegal s) := by
  rw [exec_eq, h]; rfl

/-- The inversion of `exec`. -/
theorem exec_cases {i : Instr} {s t : State} (h : exec i s = .next t) :
    (admits s.port i = true ∧ t = effect i s) ∨ (admits s.port i = false ∧ t = fail .illegal s) := by
  cases hp : admits s.port i with
  | true => rw [exec_of hp] at h; cases h; exact .inl ⟨rfl, rfl⟩
  | false => rw [exec_of_not hp] at h; cases h; exact .inr ⟨rfl, rfl⟩

@[simp] theorem admits_C (i : Instr) : admits .C i = true := rfl

@[simp] theorem admits_P (i : Instr) : admits .P i = i.admittedOnP := rfl

theorem admits_rbPush (p : Port) (v : Byte) : admits p (.rbPush v) = true := by cases p <;> rfl

theorem admits_rbPushd (p : Port) (v : Byte) : admits p (.rbPushd v) = true := by cases p <;> rfl

/-- No effect writes the parameters, the inputs to come, the port or the count of reset events. -/
theorem effect_frame (i : Instr) :
    (effect i s).params = s.params ∧ (effect i s).epoch = s.epoch ∧ (effect i s).turns = s.turns ∧
    (effect i s).cQueue = s.cQueue ∧ (effect i s).pQueue = s.pQueue ∧ (effect i s).port = s.port := by
  cases i <;> simp only [effect, rawPush, rawPop, rawPeek, rawPeekf, rawLen, crcWrite] <;> (try split_ifs) <;>
    exact ⟨rfl, rfl, rfl, rfl, rfl, rfl⟩

end Sys2Proof.Machine
end

