-- ==== Sys2Proof/Laws/Invariant.lean ====
section
/-! SUPPORT. The invariant under the two changes the ring buffer makes, and under changes elsewhere. -/

namespace Sys2Proof.Safety

open Sys2Proof.Machine

/-- The invariant speaks of the ring buffer and the parameters alone. -/
theorem Invariant.congr {s t : State} (h : Invariant s) (hm : t.mem = s.mem) (hf : t.first = s.first) (hc : t.count = s.count)
    (hp : t.params = s.params) : Invariant t where
  first_lt := by rw [hf, State.N, hp]; exact h.first_lt
  count_le := by rw [hc, State.N, hp]; exact h.count_le
  mem_wf := by rw [hm]; exact h.mem_wf
  mem_lt := by rw [hm, State.N, hp]; exact h.mem_lt
  window := by
    intro j hj
    rw [hm, ringIndex_congr hf hp]
    exact h.window j (hc ▸ hj)

/-- An append keeps the invariant. -/
theorem Invariant.append {s : State} (h : Invariant s) (v : Byte) (hc : s.count.toNat < s.N) : Invariant (append v s) where
  first_lt := h.first_lt
  count_le := by rw [append_count s hc]; exact hc
  mem_wf := Memory.wf_set _ _ h.mem_wf
  mem_lt := by
    intro c hm
    rcases Memory.mem_set hm with rfl | hm
    · exact ringIndex_lt s _
    · exact h.mem_lt c hm
  window := by
    intro j hj
    rw [append_count s hc] at hj
    show ((s.mem.set (writeIndex s) v).get? (ringIndex s j)).isSome
    by_cases e : ringIndex s j = writeIndex s
    · rw [e, Memory.get?_set_self]; rfl
    · rw [Memory.get?_set_ne _ _ e]
      refine h.window j (Nat.lt_of_le_of_ne (Nat.le_of_lt_succ hj) ?_)
      rintro rfl; exact e rfl

/-- A removal keeps the invariant. -/
theorem Invariant.removed {s : State} (h : Invariant s) (hc : 0 < s.count.toNat) : Invariant (removed s) where
  first_lt := by show (nextFirst s).toNat < s.N; rw [nextFirst_toNat]; exact ringIndex_lt s 1
  count_le := by show (s.count - 1).toNat ≤ s.N; rw [pred_toNat hc]; have := h.count_le; omega
  mem_wf := h.mem_wf
  mem_lt := h.mem_lt
  window := by
    intro j hj
    have hj : j < (s.count - 1).toNat := hj
    rw [pred_toNat hc] at hj
    show (s.mem.get? (ringIndex (s.setFirst (nextFirst s)) j)).isSome
    rw [ringIndex_setFirst_next]
    exact h.window (j + 1) (by omega)

/-- In the window a read gives a byte that was written, whatever the free value is (R20). -/
theorem Invariant.memRead_epoch {s : State} (h : Invariant s) (e : Nat) {j : Nat} (hj : j < s.count.toNat) :
    memRead { s with epoch := e } (ringIndex s j) = memRead s (ringIndex s j) := by
  obtain ⟨v, hv⟩ := Option.isSome_iff_exists.1 (h.window j hj)
  simp [memRead, hv]

end Sys2Proof.Safety
end

