-- ==== Sys2Proof/Laws/PerInstr.lean ====
section
/-! SUPPORT. Statements about every instruction as syntax, one lemma per constructor. -/

namespace Sys2Proof.Laws.EncodeSelectsRow

/-- The encoded word selects a row of the instruction's format, and that row's operand reading gives the instruction back. -/
def Statement (i : Instr) : Prop :=
  ∃ r ∈ opcodeMap, r.format = i.format ∧ r.selects (encode i) = true ∧ r.build (wordARG (encode i)) = i

/-- How each lemma below is shown: the row by its number, then its three equations. -/
theorem of_row {i : Instr} (n : Fin 12) (hf : (opcodeMap[n]'n.isLt).format = i.format)
    (hs : encode i &&& (opcodeMap[n]'n.isLt).mask = (opcodeMap[n]'n.isLt).pattern)
    (hb : (opcodeMap[n]'n.isLt).build (wordARG (encode i)) = i) : Statement i :=
  ⟨opcodeMap[n]'n.isLt, List.getElem_mem _, hf, by simpa [Row.selects] using hs, hb⟩

theorem crcClr : Statement .crcClr := of_row 0 rfl rfl rfl

theorem crcLd (v : Byte) : Statement (.crcLd v) :=
  of_row 1 rfl (by ext i hi; simp [encode, opcodeMap]; interval_cases i <;> simp)
    (congrArg Instr.crcLd (by ext i hi; simp [encode, wordARG, argByte]; interval_cases i <;> simp))

theorem crcUpd (b : Byte) : Statement (.crcUpd b) :=
  of_row 2 rfl (by ext i hi; simp [encode, opcodeMap]; interval_cases i <;> simp)
    (congrArg Instr.crcUpd (by ext i hi; simp [encode, wordARG, argByte]; interval_cases i <;> simp))

theorem crcRd : Statement .crcRd := of_row 3 rfl rfl rfl

theorem rbPush (v : Byte) : Statement (.rbPush v) :=
  of_row 4 rfl (by ext i hi; simp [encode, opcodeMap]; interval_cases i <;> simp)
    (congrArg Instr.rbPush (by ext i hi; simp [encode, wordARG, argByte]; interval_cases i <;> simp))

theorem rbPushd (v : Byte) : Statement (.rbPushd v) :=
  of_row 5 rfl (by ext i hi; simp [encode, opcodeMap]; interval_cases i <;> simp)
    (congrArg Instr.rbPushd (by ext i hi; simp [encode, wordARG, argByte]; interval_cases i <;> simp))

theorem rbPop : Statement .rbPop := of_row 6 rfl rfl rfl

theorem rbPeek (j : Half) : Statement (.rbPeek j) :=
  of_row 7 rfl (by ext i hi; simp [encode, opcodeMap]; interval_cases i <;> simp)
    (congrArg Instr.rbPeek (by ext i hi; simp [encode, wordARG]; interval_cases i <;> simp))

theorem rbPeekf (k : Half) : Statement (.rbPeekf k) :=
  of_row 8 rfl (by ext i hi; simp [encode, opcodeMap]; interval_cases i <;> simp)
    (congrArg Instr.rbPeekf (by ext i hi; simp [encode, wordARG]; interval_cases i <;> simp))

theorem rbLen : Statement .rbLen := of_row 9 rfl rfl rfl

theorem csEnter : Statement .csEnter := of_row 10 rfl rfl rfl

theorem csExit (s : Bool) : Statement (.csExit s) := by cases s <;> exact of_row 11 rfl rfl rfl

end Sys2Proof.Laws.EncodeSelectsRow
end

