-- ==== Sys2Proof/Laws/Pseudo.lean ====
section
/-! SUPPORT. What issuing an operation and acting as the handler do, said once; the equations of the drain on the queue. -/

namespace Sys2Proof.Machine

variable (s : State)

/-- Port C admits every operation, so issuing one is its effect there. -/
theorem issue_eq (i : Instr) : issue i s = effect i (s.setPort .C) := by
  unfold issue performOn
  rw [exec_of (i := i) (s := s.setPort .C) rfl]
  rfl

/-- A held handler does nothing (R121). -/
theorem handle_of_masked (a : HandlerAction) {s : State} (h : s.ie = false) : handle a s = s := by simp [handle, h]

theorem handleAll_of_masked (as : List HandlerAction) {s : State} (h : s.ie = false) : handleAll as s = s := by
  induction as with
  | nil => rfl
  | cons a as ih =>
    show handleAll as (handle a s) = s
    rw [handle_of_masked a h, ih]

end Sys2Proof.Machine

namespace Sys2Proof.Safety

open Sys2Proof.Machine

/-- A handler that is held leaves the queue alone (R121). -/
theorem handleQueue_masked (p : Parameters) (q : List Byte) (a : HandlerAction) : handleQueue p false q a = q := rfl

theorem drainQueue_nil (p : Parameters) (ie : Bool) (q : List Byte) : drainQueue p ie [] q = ([], q) := rfl

/-- A round of the drain that finds the queue empty ends it (R64). -/
theorem drainQueue_cons_of_empty {p : Parameters} {ie : Bool} {as : List HandlerAction} {q : List Byte}
    (rest : List (List HandlerAction)) (h : as.foldl (handleQueue p ie) q = []) : drainQueue p ie (as :: rest) q = ([], []) := by
  simp [drainQueue, h]

/-- A round of the drain that finds a byte takes it (R64). -/
theorem drainQueue_cons_of_cons {p : Parameters} {ie : Bool} {as : List HandlerAction} {q q' : List Byte} {b : Byte}
    (rest : List (List HandlerAction)) (h : as.foldl (handleQueue p ie) q = b :: q') :
    drainQueue p ie (as :: rest) q = (b :: (drainQueue p ie rest q').1, (drainQueue p ie rest q').2) := by
  simp [drainQueue, h]

end Sys2Proof.Safety
end

