-- ==== Sys2Proof/Laws/Step.lean ====
section
/-! SUPPORT. What one turn does, said once: the taking of the turn touches no state of the block, and a step is one of three
things. -/

namespace Sys2Proof.Machine

variable (s : State)

/-- What taking a turn can write: the schedule, one agent's queue, the port. -/
theorem advance_eq : ∃ ts cs ps p,
    advance s = { s with turns := ts, cQueue := cs, pQueue := ps, port := p } := by
  unfold advance
  split
  · exact ⟨_, _, _, _, rfl⟩
  · exact ⟨_, _, _, _, rfl⟩
  · exact ⟨_, _, _, _, rfl⟩
  · exact ⟨_, _, _, _, rfl⟩

@[simp] theorem advance_crc : (advance s).crc = s.crc := by obtain ⟨_, _, _, _, h⟩ := advance_eq s; rw [h]
@[simp] theorem advance_mem : (advance s).mem = s.mem := by obtain ⟨_, _, _, _, h⟩ := advance_eq s; rw [h]
@[simp] theorem advance_first : (advance s).first = s.first := by obtain ⟨_, _, _, _, h⟩ := advance_eq s; rw [h]
@[simp] theorem advance_count : (advance s).count = s.count := by obtain ⟨_, _, _, _, h⟩ := advance_eq s; rw [h]
@[simp] theorem advance_ie : (advance s).ie = s.ie := by obtain ⟨_, _, _, _, h⟩ := advance_eq s; rw [h]
@[simp] theorem advance_params : (advance s).params = s.params := by obtain ⟨_, _, _, _, h⟩ := advance_eq s; rw [h]
@[simp] theorem advance_epoch : (advance s).epoch = s.epoch := by obtain ⟨_, _, _, _, h⟩ := advance_eq s; rw [h]
@[simp] theorem advance_rsp : (advance s).rsp = s.rsp := by obtain ⟨_, _, _, _, h⟩ := advance_eq s; rw [h]

@[simp] theorem advance_turns : (advance s).turns = s.turns.tail := by unfold advance; split <;> rfl

@[simp] theorem advance_queue : queue (advance s) = queue s :=
  queue_congr (advance_mem s) (advance_first s) (advance_count s) (advance_params s) (advance_epoch s)

/-- The port being served is the port the command was presented on. -/
theorem advance_port {p : Port} {w : Word} (h : request s = .command p w) : (advance s).port = p := by
  unfold advance; rw [h]; cases p <;> rfl

/-- A command on P is presented only in a state with IE = 1 (R121). -/
theorem request_P {w : Word} (h : request s = .command .P w) : s.ie = true := by
  unfold request at h
  split at h
  · cases h
  · cases h
  · split at h <;> cases h
  · cases hi : s.ie with
    | true => rfl
    | false => rw [hi] at h; cases h

/-- A reset event is a turn of the schedule (R150). -/
theorem request_reset (h : request s = .reset) : ∃ ts, s.turns = .reset :: ts := by
  unfold request at h
  split at h
  · cases h
  · rename_i ts e; exact ⟨ts, e⟩
  · split at h <;> cases h
  · split at h <;> cases h

/-- Performing a word that does not decode (R56). -/
theorem perform_error {w : Word} {e : DecodeError} (h : decode w = .error e) : perform w s = .next (fail .illegal s) := by
  simp [perform, h]

/-- Performing a word that decodes (R55). -/
theorem perform_ok {w : Word} {i : Instr} (h : decode w = .ok i) : perform w s = exec i s := by
  simp [perform, h]

/-- The inversion of `perform`: an admitted operation's effect, or ILLEGAL for a word that is no admitted operation. -/
theorem perform_cases {w : Word} {s t : State} (h : perform w s = .next t) :
    (∃ i, decode w = .ok i ∧ admits s.port i = true ∧ t = effect i s) ∨
    ((∀ i, decode w = .ok i → admits s.port i = false) ∧ t = fail .illegal s) := by
  cases hd : decode w with
  | error e =>
    rw [perform_error s hd] at h; cases h
    exact .inr ⟨fun i hi => (nomatch hi), rfl⟩
  | ok i =>
    rw [perform_ok s hd] at h
    refine (exec_cases h).imp (fun e => ⟨i, rfl, e.1, e.2⟩) (fun e => ⟨fun j hj => ?_, e.2⟩)
    cases hj; exact e.1

/-- The inversion of `step`. -/
theorem step_cases {s t : State} (h : step s = .next t) :
    (request s = .nothing ∧ t = advance s) ∨ (request s = .reset ∧ t = resetEvent (advance s)) ∨
    ∃ p w, request s = .command p w ∧ perform w (advance s) = .next t := by
  unfold step at h
  split at h
  · rename_i e; cases h; exact .inl ⟨e, rfl⟩
  · rename_i e; cases h; exact .inr (.inl ⟨e, rfl⟩)
  · rename_i p w e; exact .inr (.inr ⟨p, w, e, h⟩)

theorem step_of_command {p : Port} {w : Word} (h : request s = .command p w) : step s = perform w (advance s) := by
  unfold step; rw [h]

theorem step_of_reset (h : request s = .reset) : step s = .next (resetEvent (advance s)) := by
  unfold step; rw [h]

theorem step_of_nothing (h : request s = .nothing) : step s = .next (advance s) := by
  unfold step; rw [h]

/-- Running one step and then `n` more. -/
theorem run_succ (n : Nat) {t : State} (h : step s = .next t) : core.run (n + 1) s = core.run n t := by
  have h : core.step s = .next t := h
  simp only [Host.Core.run, h]

theorem run_zero : core.run 0 s = .next s := rfl

end Sys2Proof.Machine
end

