-- ==== Sys2Proof/Machine/Assembler.lean ====
section
/-! DEFINITION. The assembler syntax (R59): reading one line of text into its port, mnemonic, operand and result name. Assembling
the line read is `assemble` in Decode.lean. -/

namespace Sys2Proof.Machine

/-- A line without its comment, which starts with `--` (R59). -/
def stripComment : List Char → List Char
  | '-' :: '-' :: _ => []
  | c :: cs => c :: stripComment cs
  | [] => []

/-- The words of a line, split at spaces; `cur` is the word being read, last character first. -/
def splitWords (cur : List Char) : List Char → List (List Char)
  | [] => if cur.isEmpty then [] else [cur.reverse]
  | c :: cs =>
    if c == ' ' then
      if cur.isEmpty then splitWords [] cs else cur.reverse :: splitWords [] cs
    else splitWords (c :: cur) cs

/-- The value of a digit in a base of at most 16. -/
def digitValue (base : Nat) (c : Char) : Option Nat :=
  let n := c.toNat
  let v := if 48 ≤ n ∧ n ≤ 57 then n - 48
    else if 65 ≤ n ∧ n ≤ 70 then n - 55
    else if 97 ≤ n ∧ n ≤ 102 then n - 87
    else base
  if v < base then some v else none

/-- The value of a digit string, most significant digit first, continuing from `acc`. -/
def digitsValue (base acc : Nat) : List Char → Option Nat
  | [] => some acc
  | c :: cs =>
    match digitValue base c with
    | none => none
    | some d => digitsValue base (acc * base + d) cs

/-- A number: `0x` prefixes hexadecimal, `0b` binary, all others are decimal (R26). -/
def parseNumber : List Char → Option Nat
  | [] => none
  | ['0', 'x'] => none
  | ['0', 'b'] => none
  | '0' :: 'x' :: ds => digitsValue 16 0 ds
  | '0' :: 'b' :: ds => digitsValue 2 0 ds
  | ds => digitsValue 10 0 ds

/-- A line that was read (R59): what `assemble` needs, and the name the result is given, if any. -/
structure ParsedLine where
  line   : Line
  result : Option String
deriving DecidableEq, Repr

/-- The optional `-> name` that ends a line. -/
def parseResult (port : Option Port) (mnemonic : List Char) (operand : Option Nat) :
    List (List Char) → Option ParsedLine
  | [] => some ⟨⟨port, String.ofList mnemonic, operand⟩, none⟩
  | [['-', '>'], name] => some ⟨⟨port, String.ofList mnemonic, operand⟩, some (String.ofList name)⟩
  | _ => none

/-- The optional operand, then the optional result name. -/
def parseOperand (port : Option Port) (mnemonic : List Char) : List (List Char) → Option ParsedLine
  | [] => parseResult port mnemonic none []
  | ['-', '>'] :: rest => parseResult port mnemonic none (['-', '>'] :: rest)
  | word :: rest =>
    match parseNumber word with
    | none => none
    | some n => parseResult port mnemonic (some n) rest

/-- The optional port prefix, then the mnemonic. -/
def parseWords : List (List Char) → Option ParsedLine
  | ['P', ':'] :: mnemonic :: rest => parseOperand (some .P) mnemonic rest
  | ['C', ':'] :: mnemonic :: rest => parseOperand (some .C) mnemonic rest
  | mnemonic :: rest => parseOperand none mnemonic rest
  | [] => none

/-- One line of assembler text (R59). -/
def parseLine (text : String) : Option ParsedLine := parseWords (splitWords [] (stripComment text.toList))

/-- The port and command word of one line of assembler text, if it can be assembled (R59). -/
def assembleText (text : String) : Option (Port × Word) :=
  match parseLine text with
  | none => none
  | some p => assemble p.line

end Sys2Proof.Machine
end

