-- ==== Sys2Proof/Tests/Slice0.lean ====
section
/-! SUPPORT. Tests. The expected values are those of spec/95_test_vectors.md (vector names V-…), of the opcode map R54 and of the
lines of R59; then, for every statement with hypotheses, a witness that meets them all. -/

namespace Sys2Proof.Tests

open Sys2Proof Sys2Proof.Machine Sys2Proof.Safety

/-- A block of capacity `n + 1` with PRODUCER_PUSH = RB.PUSHD and IE = 1. -/
def ring (n : Fin 65535) (first count : Half) (mem : Memory) : State :=
  { State.resetWith ⟨n, .pushd, true⟩ with first := first, count := count, mem := mem }

/-- The storage `[55 66 33 44]` of the vectors. -/
def cells : Memory := [(0, 0x55), (1, 0x66), (2, 0x33), (3, 0x44)]

/-- `2/4/[55 66 33 44]`, a full buffer of capacity 4. -/
def full4 : State := ring 3 2 4 cells

/-- `2/3/[55 66 33 44]`, a partially filled buffer whose next write wraps to cell 1. -/
def part4 : State := ring 3 2 3 cells

/-- An empty buffer of capacity 4. -/
def empty4 : State := ring 3 0 0 []

/-- `0/1/[AA]`, a full buffer of capacity 1. -/
def full1 : State := ring 0 0 1 [(0, 0xAA)]

/-- The start state of section 2.6: CRC = 15, `0/1/[5A -- -- --]`. -/
def dec : State := (ring 3 0 1 [(0, 0x5A)]).setCrc 0x15

/-- The state with one command word presented next on a port. -/
def presented (p : Port) (w : Word) (s : State) : State :=
  match p with
  | .C => (s.setTurns [.consumer]).setCQueue [w]
  | .P => (s.setTurns [.producer]).setPQueue [.present w]

/-- The outcome: state `s` with this response. -/
def answer (s : State) (st : Status) (val : Half) (data : List Byte) : Outcome := .next (respond st val data s)

/-- The outcome is a next state. -/
def isNext : Outcome → Bool
  | .next _ => true
  | .fault _ => false
  | .refused _ => false

/-! ### Well-formedness: what cannot be assembled (R51, R59) -/

theorem test_wf_unknown_mnemonic : Line.wellFormed ⟨none, "RB.SKIPPED", none⟩ = false := by decide
theorem test_wf_missing_operand : Line.wellFormed ⟨some .C, "CRC.UPD", none⟩ = false := by decide
theorem test_wf_extra_operand : Line.wellFormed ⟨none, "RB.POP", some 0⟩ = false := by decide
theorem test_wf_byte_out_of_range : Line.wellFormed ⟨some .P, "RB.PUSH", some 256⟩ = false := by decide
theorem test_wf_index_out_of_range : Line.wellFormed ⟨none, "RB.PEEK", some 65536⟩ = false := by decide
theorem test_wf_flag_out_of_range : Line.wellFormed ⟨none, "CS.EXIT", some 2⟩ = false := by decide
theorem test_wf_missing_index : operandFits .I none = false := by decide
theorem test_wf_missing_flag : operandFits .F none = false := by decide
theorem test_wf_accepts_bounds :
    Line.wellFormed ⟨none, "RB.PUSH", some 255⟩ && Line.wellFormed ⟨none, "RB.PEEKF", some 65535⟩ &&
    Line.wellFormed ⟨none, "CS.EXIT", some 1⟩ && Line.wellFormed ⟨none, "RB.LEN", none⟩ = true := by decide

/-! ### Decoding: words written out from the fields OPC, MBZ, ARG (R50, R51, R54) -/

theorem test_decode_crcClr : decode 0b00010000_00000000_00000000_00000000 = .ok .crcClr := by rfl
theorem test_decode_crcLd : decode 0b00010001_00000000_00000000_01111110 = .ok (.crcLd 0x7E) := by rfl
theorem test_decode_crcUpd : decode 0b00010010_00000000_00000000_11111111 = .ok (.crcUpd 0xFF) := by rfl
theorem test_decode_crcRd : decode 0b00010011_00000000_00000000_00000000 = .ok .crcRd := by rfl
theorem test_decode_rbPush : decode 0b00100000_00000000_00000000_10001000 = .ok (.rbPush 0x88) := by rfl
theorem test_decode_rbPushd : decode 0b00100001_00000000_00000000_01110111 = .ok (.rbPushd 0x77) := by rfl
theorem test_decode_rbPop : decode 0b00100010_00000000_00000000_00000000 = .ok .rbPop := by rfl
theorem test_decode_rbPeek : decode 0b00100011_00000000_10000000_00000001 = .ok (.rbPeek 0x8001) := by rfl
theorem test_decode_rbPeekf : decode 0b00100100_00000000_00000001_00000100 = .ok (.rbPeekf 0x0104) := by rfl
theorem test_decode_rbLen : decode 0b00100101_00000000_00000000_00000000 = .ok .rbLen := by rfl
theorem test_decode_csEnter : decode 0b00110000_00000000_00000000_00000000 = .ok .csEnter := by rfl
theorem test_decode_csExit_0 : decode 0b00110001_00000000_00000000_00000000 = .ok (.csExit false) := by rfl
theorem test_decode_csExit_1 : decode 0b00110001_00000000_00000000_00000001 = .ok (.csExit true) := by rfl

/-- V-DEC-1, 2, 10, 14, 17, 18. -/
theorem test_decode_unused_opcodes :
    decode 0x00000000 = .error (.unusedOpcode 0x00) ∧ decode 0xFFFFFFFF = .error (.unusedOpcode 0xFF) ∧
    decode 0x14000000 = .error (.unusedOpcode 0x14) ∧ decode 0x26000000 = .error (.unusedOpcode 0x26) ∧
    decode 0x32000000 = .error (.unusedOpcode 0x32) ∧ decode 0x90000000 = .error (.unusedOpcode 0x90) :=
  ⟨rfl, rfl, rfl, rfl, rfl, rfl⟩

/-- V-DEC-7, V-DEC-9, and a format I word with a stray MBZ bit. -/
theorem test_decode_mbz :
    decode 0x12010055 = .error .mbzNotZero ∧ decode 0x13800000 = .error .mbzNotZero ∧
    decode 0x23010000 = .error .mbzNotZero := ⟨rfl, rfl, rfl⟩

/-- V-DEC-4, 6, 11, 16. -/
theorem test_decode_stray_arg :
    decode 0x10000001 = .error .argNotZero ∧ decode 0x12000155 = .error .argNotZero ∧
    decode 0x20000100 = .error .argNotZero ∧ decode 0x31000002 = .error .argNotZero := ⟨rfl, rfl, rfl, rfl⟩

/-- A 32-bit row read as the host numbers it. -/
theorem test_decodeTableWord : decodeTableWord 32 0x2300FFFF = some (.rbPeek 65535) ∧ decodeTableWord 32 0 = none :=
  ⟨rfl, rfl⟩

/-! ### The assembler lines of R59 -/

theorem test_assemble_comment : assembleText "C: CRC.UPD 0x55          -- command word 0x12000055" = some (.C, 0x12000055) := by
  decide
theorem test_assemble_producer : assembleText "P: RB.PUSHD 0x55         -- command word 0x21000055" = some (.P, 0x21000055) := by
  decide
theorem test_assemble_result : assembleText "   RB.PEEK 5 -> h5" = some (.C, 0x23000005) := by decide
theorem test_assemble_result_name : (parseLine "RB.LEN -> n").bind ParsedLine.result = some "n" := by decide
/-- V-CS-9. -/
theorem test_assemble_out_of_range : assembleText "CS.EXIT 2" = none ∧ assembleText "CS.EXIT 1" = some (.C, 0x31000001) := by
  decide

/-! ### Unit CRC -/

/-- V-CRC-1, 9, 10, 12, 14, 16, 17. -/
theorem test_crc8_vectors :
    crc8 [] = 0x00 ∧ crc8 [0x31, 0x32, 0x33, 0x34, 0x35, 0x36, 0x37, 0x38, 0x39] = 0xF4 ∧ crc8 [0x00, 0x01, 0x00, 0x05] = 0x70 ∧
    crc8 [0x12, 0x34] = 0xF1 ∧ crc8 [0x00, 0x01, 0x00, 0x05, 0x70] = 0x00 ∧ crc8 [0xFF, 0xFF, 0xFF, 0xFF] = 0xDE ∧
    crc8 [0x55, 0x00, 0x01, 0x00, 0x05] = 0x67 := by decide

/-- By the table of R75 the update with byte 0x00 leaves CRC unchanged at 0x00 and at 0xFD, and nowhere else. -/
theorem test_table_fixed_points : ∀ c : Byte, TABLE c = c ↔ c = 0x00 ∨ c = 0xFD := by decide

/-- V-CRC-12: `crc8_incremental(7E, [34]) = F1`. -/
theorem test_crc8_incremental : crc8Incremental 0x7E [0x34] = 0xF1 := by decide

/-- The bit-by-bit reference on 01, 80, FF, 55 (section 2.2, last column). -/
theorem test_crc8_bitwise :
    crc8Bitwise 0x00 [0x01] = 0x07 ∧ crc8Bitwise 0x00 [0x80] = 0x89 ∧ crc8Bitwise 0x00 [0xFF] = 0xF3 ∧
    crc8Bitwise 0x00 [0x55] = 0xAC := by decide

/-- V-CRC-OP-1. -/
theorem test_crcClr : exec .crcClr (empty4.setCrc 0xF4) = answer (empty4.setCrc 0x00) .ok 0 [] := by rfl
/-- V-CRC-OP-4, first operation. -/
theorem test_crcLd : exec (.crcLd 0x7E) empty4 = answer (empty4.setCrc 0x7E) .ok 0 [] := by rfl
/-- V-UPD-4. -/
theorem test_crcUpd : exec (.crcUpd 0x05) (empty4.setCrc 0x15) = answer (empty4.setCrc 0x70) .ok 0 [] := by rfl
/-- V-UPD-11. -/
theorem test_crcUpd_top : exec (.crcUpd 0x54) (empty4.setCrc 0xAB) = answer (empty4.setCrc 0xF3) .ok 0 [] := by rfl
/-- V-CRC-OP-3. -/
theorem test_crcRd : exec .crcRd (empty4.setCrc 0x70) = answer (empty4.setCrc 0x70) .ok 0x0070 [] := by rfl

/-! ### Unit RB -/

/-- V-RB-8: the write index wraps. -/
theorem test_rbPush_wraps :
    exec (.rbPush 0x55) (ring 3 2 2 [(0, 0x11), (1, 0x22), (2, 0x33), (3, 0x44)]) =
      answer (ring 3 2 3 [(0, 0x55), (1, 0x22), (2, 0x33), (3, 0x44)]) .ok 0 [] := by rfl
/-- V-RB-9. -/
theorem test_rbPush_full : exec (.rbPush 0x88) full4 = answer full4 .full 0 [] := by rfl
/-- V-RB-11: a stale cell is overwritten. -/
theorem test_rbPushd :
    exec (.rbPushd 0x99) part4 = answer (ring 3 2 4 [(0, 0x55), (1, 0x99), (2, 0x33), (3, 0x44)]) .ok 0 [] := by rfl
/-- V-RB-10. -/
theorem test_rbPushd_full : exec (.rbPushd 0x77) full4 = answer full4 .ok 0 [] := by rfl
/-- V-RB-12: FIRST wraps. -/
theorem test_rbPop_wraps : exec .rbPop (ring 3 3 3 cells) = answer (ring 3 0 2 cells) .ok 0x0044 [] := by rfl
/-- V-RB-2. -/
theorem test_rbPop_empty : exec .rbPop empty4 = answer empty4 .empty 0 [] := by rfl
/-- V-RB-15: the newest byte. -/
theorem test_rbPeek_newest : exec (.rbPeek 3) full4 = answer full4 .ok 0x0066 [] := by rfl
/-- V-RB-16: index COUNT. -/
theorem test_rbPeek_count : exec (.rbPeek 4) full4 = answer full4 .range 0 [] := by rfl
/-- V-RB-18: the burst wraps. -/
theorem test_rbPeekf_wraps : exec (.rbPeekf 4) full4 = answer full4 .ok 4 [0x33, 0x44, 0x55, 0x66] := by rfl
/-- V-RB-21: all or nothing. -/
theorem test_rbPeekf_too_long : exec (.rbPeekf 4) part4 = answer part4 .range 0 [] := by rfl
/-- V-RB-22. -/
theorem test_rbLen : exec .rbLen full4 = answer full4 .ok 4 [] := by rfl
/-- V-RB-27: N = 1. -/
theorem test_rbPop_capacity_1 : exec .rbPop full1 = answer (ring 0 0 0 [(0, 0xAA)]) .ok 0x00AA [] := by rfl

/-- Section 2.4, index arithmetic at N = 65535: the untruncated sums. -/
theorem test_index_sum : ringIndex (ring 65534 65534 65535 []) 65534 = 65533 ∧ nextFirst (ring 65534 65534 65535 []) = 0 ∧
    writeIndex (ring 65534 65534 1 []) = 0 := by decide

/-- The default of PRODUCER_PUSH is RB.PUSHD (R7): a record that leaves it out has it, and so have the default record and reset. -/
theorem test_producerPush_default :
    ({ nPred := 3, ieReset := true } : Parameters).producerPush = .pushd ∧ (default : Parameters).producerPush = .pushd ∧
    handlerWord State.reset.params (.receive 0x55) = 0x21000055 := ⟨rfl, rfl, rfl⟩

/-- The response word of V-RB-9. -/
theorem test_response_word : Response.word ⟨.full, 0, []⟩ = 0x00010000 ∧ Response.word ⟨.illegal, 0, []⟩ = 0x00040000 := by decide

/-! ### The critical section and the ports -/

/-- V-CS-1. -/
theorem test_csEnter : exec .csEnter empty4 = answer (empty4.setIe false) .ok 0x0001 [] := by rfl
/-- V-CS-2. -/
theorem test_csEnter_masked : exec .csEnter (empty4.setIe false) = answer (empty4.setIe false) .ok 0x0000 [] := by rfl
/-- V-CS-3. -/
theorem test_csExit : exec (.csExit true) (empty4.setIe false) = answer empty4 .ok 0 [] := by rfl
/-- V-CS-6: the wrapper restores 0. -/
theorem test_wrapper_restores_0 : exec .rbPop (part4.setIe false) = answer ((ring 3 3 2 cells).setIe false) .ok 0x0033 [] := by rfl
/-- V-CS-8: a held producer keeps its command. -/
theorem test_producer_held :
    step ((presented .P 0x21000055 dec).setIe false) = .next (((presented .P 0x21000055 dec).setIe false).setTurns []) := by rfl
/-- V-DEC-19. -/
theorem test_producer_pushes :
    step (presented .P 0x21000055 dec) =
      answer ((((ring 3 0 2 [(0, 0x5A), (1, 0x55)]).setCrc 0x15)).setPort .P) .ok 0 [] := by rfl
/-- V-DEC-21. -/
theorem test_producer_pop_illegal : step (presented .P 0x22000000 dec) = answer (dec.setPort .P) .illegal 0 [] := by rfl
/-- V-DEC-16. -/
theorem test_illegal_word : step (presented .C 0x31000002 dec) = answer dec .illegal 0 [] := by rfl
/-- A reset event (R150) from a full buffer: the queue is gone, the parameters stay. -/
theorem test_reset_event : step ((full4.setCrc 0x15).setTurns [.reset]) = .next { empty4 with epoch := 1 } := by rfl

/-- R65: in a CRIT of one pop the handler's push is held, and IE is 1 again afterwards. -/
theorem test_crit :
    queue (crit [([.receive 0x99], .rbPop)] [.receive 0x77] part4) = [0x44, 0x55] ∧
    (crit [([.receive 0x99], .rbPop)] [.receive 0x77] part4).ie = true := ⟨rfl, rfl⟩

/-- R64, R62: a drain of more bytes than are buffered stops at EMPTY; a skip drops the oldest byte. -/
theorem test_drain : (drain [[], [], [], []] part4).1 = [0x33, 0x44, 0x55] ∧ queue (issue skipOp part4) = [0x44, 0x55] := ⟨rfl, rfl⟩

/-- Every row's word with a zero operand runs as the first instruction after reset, whatever N and IE_RESET are. -/
theorem test_first_word_runs :
    ([0x10000000, 0x11000000, 0x12000000, 0x13000000, 0x20000000, 0x21000000, 0x22000000, 0x23000000, 0x24000000, 0x25000000,
      0x30000000, 0x31000000].all fun w => isNext (step (State.reset.withFetchWord 32 w))) = true := by rfl

/-! ### Witnesses: for every statement with hypotheses, states and operands that meet them all, at the boundaries of each clause -/

theorem full4_invariant : Invariant full4 := ⟨by decide, by decide, by decide, by decide, by decide⟩
theorem part4_invariant : Invariant part4 := ⟨by decide, by decide, by decide, by decide, by decide⟩
theorem empty4_invariant : Invariant empty4 := ⟨by decide, by decide, by decide, by decide, by decide⟩
theorem full1_invariant : Invariant full1 := ⟨by decide, by decide, by decide, by decide, by decide⟩

/-- N = 65535, FIRST = 65534, COUNT = 1. -/
def top : State := ring 65534 65534 1 [(65534, 0x42)]

theorem top_invariant : Invariant top := ⟨by decide, by decide, by decide, by decide, by decide⟩

/-- A state with coming commands on both ports and the given schedule. -/
def busy (ts : List Turn) : State :=
  ((part4.setTurns ts).setCQueue [0x22000000, 0x12000055]).setPQueue [.receive 0x99, .present 0x25000000]

theorem busy_invariant (ts : List Turn) : Invariant (busy ts) :=
  ⟨part4_invariant.first_lt, part4_invariant.count_le, part4_invariant.mem_wf, part4_invariant.mem_lt, part4_invariant.window⟩

theorem witness_ResetEventRestoresResetState : (busy [.reset, .consumer]).turns = .reset :: [.consumer] := rfl

theorem witness_ResetConsequences : (1 : Half) ≠ 0 ∧ (65535 : Half) ≠ 0 := by decide

theorem witness_StepKeepsInvariant :
    (∃ t, Invariant (busy [.consumer]) ∧ step (busy [.consumer]) = .next t ∧ t.count = 2) ∧
    (∃ t, Invariant (busy [.producer]) ∧ step (busy [.producer]) = .next t ∧ t.count = 4) :=
  ⟨⟨_, busy_invariant _, rfl, rfl⟩, ⟨_, busy_invariant _, rfl, rfl⟩⟩

theorem witness_ReachableIndicesStayInRange :
    ∃ t : State, core.run 3 ({ State.resetWith ⟨0, .push, true⟩ with
      turns := [.producer, .producer, .consumer], cQueue := [0x22000000], pQueue := [.receive 0xAA, .receive 0xBB] } : State) =
      .next t ∧ t.rsp = some ⟨.ok, 0x00AA, []⟩ := ⟨_, rfl, rfl⟩

theorem witness_OccupancyFollowsCount :
    (Invariant empty4 ∧ empty4.count = 0) ∧ (Invariant part4 ∧ 0 < part4.count.toNat ∧ part4.count.toNat < part4.N) ∧
    (Invariant full4 ∧ full4.count.toNat = full4.N) ∧ (Invariant full1 ∧ full1.N = 1) :=
  ⟨⟨empty4_invariant, rfl⟩, ⟨part4_invariant, by decide, by decide⟩, ⟨full4_invariant, rfl⟩, ⟨full1_invariant, rfl⟩⟩

theorem witness_IndexSumNeedsOneSubtraction :
    Invariant top ∧ 0 ≤ top.count.toNat ∧ 1 ≤ top.count.toNat ∧ ¬ top.N ≤ top.first.toNat + 0 ∧ top.N ≤ top.first.toNat + 1 :=
  ⟨top_invariant, by decide, by decide, by decide, by decide⟩

theorem witness_DecodeOfEncodeIsTheInstruction : (Instr.rbPeek 65535).wellFormed = true ∧ (Instr.csExit true).wellFormed = true := by
  decide

theorem witness_EncodeOfDecodeIsTheWord : decode 0x2400FFFF = .ok (.rbPeekf 65535) := rfl

theorem witness_OpcodeRowsDoNotOverlap :
    ∃ r : Row, opcodeMap[11]? = some r ∧ (0x31000001 : Word) &&& r.mask = r.pattern := ⟨_, rfl, by decide⟩

theorem witness_IllegalWordChangesNothing :
    request (presented .C 0x12010055 dec) = .command .C 0x12010055 ∧ request (presented .P 0 dec) = .command .P 0 ∧
    (∀ r ∈ opcodeMap, (0x12010055 : Word) &&& r.mask ≠ r.pattern) ∧ (∀ r ∈ opcodeMap, (0 : Word) &&& r.mask ≠ r.pattern) :=
  ⟨rfl, rfl, by decide, by decide⟩

theorem witness_PortAdmission :
    dec.port = .C ∧ (dec.setPort .P).port = .P ∧ (∃ v, Instr.rbPush 0xFF = .rbPush v ∨ Instr.rbPush 0xFF = .rbPushd v) ∧
    (∀ v, Instr.rbPop ≠ .rbPush v ∧ Instr.rbPop ≠ .rbPushd v) := ⟨rfl, rfl, ⟨0xFF, .inl rfl⟩, by decide⟩

theorem witness_StepRunsDecodedInstruction :
    ((busy [.consumer]).turns = .consumer :: [] ∧ (busy [.consumer]).cQueue = 0x22000000 :: [0x12000055] ∧
      decode 0x22000000 = .ok .rbPop) ∧
    ((busy [.producer]).turns = .producer :: [] ∧ (busy [.producer]).ie = true ∧
      (busy [.producer]).pQueue = .receive 0x99 :: [.present 0x25000000] ∧
      decode (handlerWord (busy [.producer]).params (.receive 0x99)) = .ok (.rbPushd 0x99)) :=
  ⟨⟨rfl, rfl, rfl⟩, rfl, rfl, rfl, rfl⟩

theorem witness_EveryCommandIsAnswered :
    request (busy [.consumer]) = .command .C 0x22000000 ∧ request (busy [.producer]) = .command .P 0x21000099 := ⟨rfl, rfl⟩

theorem witness_ProducerHeldWhileMasked :
    (((busy [.producer]).setIe false).ie = false ∧ ((busy [.producer]).setIe false).turns = .producer :: []) ∧
    (∃ t, ((presented .C 0x31000001 dec).setIe false).ie = false ∧
      step ((presented .C 0x31000001 dec).setIe false) = .next t ∧ t.ie = true) ∧
    (∃ t, ((busy [.reset]).setIe false).ie = false ∧ step ((busy [.reset]).setIe false) = .next t ∧ t.ie = true) :=
  ⟨⟨rfl, rfl⟩, ⟨_, rfl, rfl, rfl⟩, ⟨_, rfl, rfl, rfl⟩⟩

theorem witness_ProducerStepKeepsInterruptsEnabled : request (busy [.producer]) = .command .P 0x21000099 := rfl

theorem witness_ReceiveInterruptPushesOneByte :
    ((busy [.producer]).turns = .producer :: [] ∧ (busy [.producer]).ie = true ∧
      (busy [.producer]).pQueue = .receive 0x99 :: [.present 0x25000000] ∧ (busy [.producer]).count.toNat + 1 = (busy [.producer]).N) ∧
    (((full4.setTurns [.producer]).setPQueue [.receive 0x77]).pQueue = .receive 0x77 :: [] ∧
      ((full4.setTurns [.producer]).setPQueue [.receive 0x77]).ie = true ∧
      ((full4.setTurns [.producer]).setPQueue [.receive 0x77]).count.toNat = full4.N) :=
  ⟨⟨rfl, rfl, rfl, rfl⟩, rfl, rfl, rfl⟩

theorem witness_PushAndPopTogetherAtFull :
    Invariant full4 ∧ full4.ie = true ∧ full4.count.toNat = full4.N ∧ queue full4 = 0x33 :: [0x44, 0x55, 0x66] :=
  ⟨full4_invariant, rfl, rfl, rfl⟩

/-- The operations of unit CRC and the two primitives answer on port C: the hypothesis of CrcClrEffect, CrcLdEffect, CrcUpdEffect,
CrcRdEffect, CsEnterEffect (with IE = 1 and IE = 0), CsExitEffect, RbLenEffect and ReadsHaveNoSideEffect. -/
theorem witness_port_C : full4.port = .C ∧ full4.ie = true ∧ (full4.setIe false).port = .C ∧ (full4.setIe false).ie = false :=
  ⟨rfl, rfl, rfl, rfl⟩

theorem witness_CrcArithmeticLaws : [(0xB7 : Byte), 0x6E].length = [(0x12 : Byte), 0x34].length ∧ (0x00 : Byte) ≠ 0xFF ∧
    TABLE 0x00 = TABLE 0x00 := by decide

theorem witness_CrcUnitIsIsolated :
    isCrc (.crcUpd 0xFF) = true ∧ full4.port = .C ∧ empty4.port = .C ∧ empty4.crc = full4.crc ∧ empty4 ≠ full4 := by decide

theorem witness_OnlyCrcWritesTouchCrc :
    (∃ t, exec (.crcUpd 0x55) dec = .next t ∧ t.crc ≠ dec.crc) ∧ (∃ t, exec .rbPop dec = .next t ∧ isCrc .rbPop = false) :=
  ⟨⟨_, rfl, by decide⟩, _, rfl, rfl⟩

/-- A message of two bytes, with pushes on P, a pop on C and a CRC operation refused on P in between. -/
theorem witness_StreamingComputesCrc8 :
    let ops : List (Port × Instr) := [(.C, .crcClr), (.P, .rbPush 0x5A), (.C, .crcUpd 0x12), (.P, .crcClr), (.C, .rbPop), (.C, .crcUpd 0x34)]
    let cont : List (Port × Instr) := [(.C, .crcLd 0x7E), (.C, .csEnter), (.C, .crcUpd 0x34)]
    (ops ++ [(Port.C, Instr.crcRd)]).filter (fun o => admits o.1 o.2 && isCrc o.2) =
      (crc8Ops [0x12, 0x34]).map (fun i => (Port.C, i)) ∧
    (cont ++ [(Port.C, Instr.crcRd)]).filter (fun o => admits o.1 o.2 && isCrc o.2) =
      (crc8ContOps 0x7E [0x34]).map (fun i => (Port.C, i)) := by decide

/-- RbPushEffect and RbPushdEffect: COUNT = 0, COUNT = N - 1, COUNT = N, and N = 1. -/
theorem witness_RbPushEffect :
    empty4.count.toNat < empty4.N ∧ part4.count.toNat + 1 = part4.N ∧ part4.count.toNat < part4.N ∧ full4.N ≤ full4.count.toNat ∧
    full1.N ≤ full1.count.toNat := by decide

theorem witness_RbPopEffect :
    (full4.port = .C ∧ full4.first.toNat < full4.N ∧ 0 < full4.count.toNat) ∧
    (full1.port = .C ∧ full1.first.toNat < full1.N ∧ 0 < full1.count.toNat ∧ full1.count = 1) ∧
    (empty4.port = .C ∧ empty4.count = 0) := by decide

theorem witness_RbPeekEffect :
    full4.port = .C ∧ (0 : Half).toNat < full4.count.toNat ∧ (3 : Half).toNat < full4.count.toNat ∧
    full4.count.toNat ≤ (4 : Half).toNat ∧ full4.count.toNat ≤ (65535 : Half).toNat := by decide

theorem witness_RbPeekfEffect :
    full4.port = .C ∧ (0 : Half).toNat ≤ full4.count.toNat ∧ (4 : Half).toNat ≤ full4.count.toNat ∧
    full4.count.toNat < (5 : Half).toNat ∧ (0 : Half).toNat ≤ empty4.count.toNat ∧ 3 < (4 : Half).toNat := by decide

theorem witness_ReadsHaveNoSideEffect :
    full4.port = .C ∧ full4.first.toNat < full4.N ∧ 0 < full4.count.toNat ∧ (∃ k, Instr.rbPeekf 4 = .rbPeekf k) ∧ full4.crc = 0x00 ∧
    (∃ t r, exec (.rbPush 0x88) full4 = .next t ∧ t.rsp = some r ∧ r.st ≠ .ok) :=
  ⟨rfl, by decide, by decide, ⟨4, rfl⟩, rfl, _, _, rfl, rfl, by decide⟩

theorem witness_FailureRecordsNothing :
    full4.count.toNat = full4.N ∧ ∃ t r, perform 0x20000088 full4 = .next t ∧ t.rsp = some r ∧ r.st ≠ .ok :=
  ⟨rfl, _, _, rfl, rfl, by decide⟩

/-- One case of each status. -/
theorem witness_StatusConditions :
    (∃ t, Invariant full4 ∧ exec .rbLen full4 = .next t ∧ t.rsp = some ⟨.ok, 4, []⟩) ∧
    (∃ t, Invariant full4 ∧ exec (.rbPush 0x88) full4 = .next t ∧ t.rsp = some (failed .full)) ∧
    (∃ t, Invariant empty4 ∧ exec .rbPop empty4 = .next t ∧ t.rsp = some (failed .empty)) ∧
    (∃ t, Invariant full4 ∧ exec (.rbPeek 4) full4 = .next t ∧ t.rsp = some (failed .range)) ∧
    (∃ t, Invariant full4 ∧ exec (.rbPeekf 5) full4 = .next t ∧ t.rsp = some (failed .range)) ∧
    (∃ t, Invariant part4 ∧ exec .rbPop (part4.setPort .P) = .next t ∧ t.rsp = some (failed .illegal)) :=
  ⟨⟨_, full4_invariant, rfl, rfl⟩, ⟨_, full4_invariant, rfl, rfl⟩, ⟨_, empty4_invariant, rfl, rfl⟩,
    ⟨_, full4_invariant, rfl, rfl⟩, ⟨_, full4_invariant, rfl, rfl⟩, ⟨_, part4_invariant, rfl, rfl⟩⟩

theorem witness_QueueMachineRefined : full4.first.toNat < full4.N ∧ full4.count.toNat ≤ full4.N := by decide

/-- The queue `[33, 44, 55]` in another place of the storage. -/
def moved (ts : List Turn) : State :=
  ((((ring 3 0 3 [(0, 0x33), (1, 0x44), (2, 0x55)]).setTurns ts).setCQueue [0x22000000, 0x12000055]).setPQueue
    [.receive 0x99, .present 0x25000000])

theorem witness_LayoutIsUnobservable :
    let ts : List Turn := [.producer, .consumer, .consumer]
    Invariant (busy ts) ∧ Invariant (moved ts) ∧ SameView (busy ts) (moved ts) ∧ busy ts ≠ moved ts ∧
    ∃ s', core.run 3 (busy ts) = .next s' :=
  ⟨busy_invariant _, ⟨by decide, by decide, by decide, by decide, by decide⟩, ⟨rfl, rfl, rfl, rfl, rfl, rfl, rfl⟩, by decide, _, rfl⟩

theorem witness_UnspecifiedBytesUnobservable : ∃ t, Invariant part4 ∧ exec (.rbPeekf 3) part4 = .next t := ⟨_, part4_invariant, rfl⟩

/-- FifoOrderPreserved and CountIsPushesMinusPops: a schedule without a reset event, from an empty buffer, in which a push and a
pop are accepted. -/
theorem witness_FifoOrderPreserved :
    let s := { empty4 with turns := [.producer, .consumer], cQueue := [0x22000000], pQueue := [.receive 0x99] }
    Invariant s ∧ Turn.reset ∉ s.turns ∧ queue s = [] ∧ 0 < (history 2 s).2.1.length :=
  ⟨⟨by decide, by decide, by decide, by decide, by decide⟩, by decide, rfl, by decide⟩

theorem witness_QueueGrowsAtTailBetweenPops :
    ∃ t, Invariant (busy [.producer]) ∧ step (busy [.producer]) = .next t ∧ request (busy [.producer]) ≠ .reset ∧
      poppedByte (busy [.producer]) t = [] ∧ queue t = [0x33, 0x44, 0x55, 0x99] :=
  ⟨_, busy_invariant _, rfl, by decide, rfl, rfl⟩

theorem witness_PopsReturnWhatPeekfShowed :
    Invariant part4 ∧ [[HandlerAction.receive 0x99], [], [.present 0x22000000]].length ≤ part4.count.toNat :=
  ⟨part4_invariant, by decide⟩

/-- Four rounds from three buffered bytes: with a handler that pushes one byte the drain takes four, with one that presents other
words it stops at EMPTY. -/
theorem witness_DrainTakesAtMostM :
    Invariant part4 ∧ (drain [[], [.receive 0x99], [], [.present 0x22000000]] part4).1 = [0x33, 0x44, 0x55, 0x99] ∧
    (drain [[], [.present 0x13000000], [], []] part4).1.length < [[], [HandlerAction.present 0x13000000], [], []].length :=
  ⟨part4_invariant, rfl, by decide⟩

theorem witness_OversizedRequestsFail :
    Invariant full4 ∧ full4.port = .C ∧ full4.N < (5 : Half).toNat ∧ full4.N ≤ (4 : Half).toNat :=
  ⟨full4_invariant, rfl, by decide, by decide⟩

theorem witness_WrapperRestoresInterruptEnable :
    isRb .rbLen = true ∧ accepts (dec.setPort .P).port 0x30000000 = false ∧ accepts dec.port 0x31000002 = false ∧
    ∃ t, perform 0x31000002 dec = .next t := ⟨rfl, rfl, rfl, _, rfl⟩

theorem witness_CriticalSectionsNest :
    Nest.proper (.op [.receive 0x99] .rbPop (.pair [.receive 0x77] (.op [] (.crcUpd 0x55) (.done [])) (.done [.present 0]))) = true :=
  rfl

/-- A run that goes through and one that is refused. -/
theorem witness_CheckedRunRefusesIllegal :
    (∃ t u u', runChecked 2 (busy [.producer, .consumer]) = .next t ∧ core.run 1 (busy [.producer, .consumer]) = .next u ∧
      request u = .command .C 0x22000000 ∧ step u = .next u') ∧
    runChecked 1 (presented .C 0x31000002 dec) = .refused (.illegalCommand .C 0x31000002) := ⟨⟨_, _, _, rfl, rfl, rfl, rfl⟩, rfl⟩

end Sys2Proof.Tests
end

section
/-! What every operation and every step does to the ring buffer, said once: it appends one byte, removes one byte, or leaves the
ring alone (R93, R95, R97, R104). And a step always has a next state (R130). -/

namespace Sys2Proof.Safety

open Sys2Proof.Machine

/-- Every operation has a next state, on either port (R130). -/
theorem exec_eq_next (i : Instr) (s : State) : ∃ t, exec i s = .next t := by
  cases h : admits s.port i with
  | true => exact ⟨_, exec_of h⟩
  | false => exact ⟨_, exec_of_not h⟩

/-- Every command word is answered (R130). -/
theorem perform_eq_next (w : Word) (s : State) : ∃ t, perform w s = .next t := by
  cases h : decode w with
  | ok i => rw [perform_ok s h]; exact exec_eq_next i s
  | error e => exact ⟨_, perform_error s h⟩

/-- Every state has a next state (R130). -/
theorem step_eq_next (s : State) : ∃ t, step s = .next t := by
  cases h : request s with
  | nothing => exact ⟨_, step_of_nothing s h⟩
  | reset => exact ⟨_, step_of_reset s h⟩
  | command p w => rw [step_of_command s h]; exact perform_eq_next w (advance s)

theorem sameFrame_effect (i : Instr) (s : State) : SameFrame s (effect i s) := by
  obtain ⟨hparams, hepoch, hturns, hcQueue, hpQueue, hport⟩ := effect_frame s i
  exact ⟨hparams, hepoch, hturns, hcQueue, hpQueue, hport⟩

theorem sameFrame_setRsp (s : State) (r : Option Response) : SameFrame s (s.setRsp r) := ⟨rfl, rfl, rfl, rfl, rfl, rfl⟩

theorem sameRing_setRsp (s : State) (r : Option Response) : SameRing s (s.setRsp r) := ⟨rfl, rfl, rfl⟩

/-- The four operations that only read (R37). -/
def IsRead (i : Instr) : Prop := (∃ j, i = .rbPeek j) ∨ (∃ k, i = .rbPeekf k) ∨ i = .rbLen ∨ i = .crcRd

theorem rawPeek_setRsp (j : Half) (s : State) (r : Option Response) : rawPeek j (s.setRsp r) = s.setRsp (rawPeek j s).rsp := by
  by_cases h : j.toNat < s.count.toNat
  · rw [rawPeek_of_lt h, rawPeek_of_lt (s := s.setRsp r) h]; rfl
  · rw [rawPeek_of_not_lt h, rawPeek_of_not_lt (s := s.setRsp r) h]; rfl

theorem rawPeekf_setRsp (k : Half) (s : State) (r : Option Response) :
    rawPeekf k (s.setRsp r) = s.setRsp (rawPeekf k s).rsp := by
  by_cases h : k.toNat ≤ s.count.toNat
  · rw [rawPeekf_of_le h, rawPeekf_of_le (s := s.setRsp r) h]; rfl
  · rw [rawPeekf_of_not_le h, rawPeekf_of_not_le (s := s.setRsp r) h]; rfl

/-- A read writes its response and nothing else, and the response does not depend on the one before it. -/
theorem effect_setRsp_of_isRead {i : Instr} (h : IsRead i) (s : State) (r : Option Response) :
    effect i (s.setRsp r) = s.setRsp (effect i s).rsp := by
  rcases h with ⟨j, rfl⟩ | ⟨k, rfl⟩ | rfl | rfl
  · exact rawPeek_setRsp j s r
  · exact rawPeekf_setRsp k s r
  · rfl
  · rfl

theorem effect_of_isRead {i : Instr} (h : IsRead i) (s : State) : effect i s = s.setRsp (effect i s).rsp :=
  effect_setRsp_of_isRead h s s.rsp

/-- The byte operation `i` pushes from `s`, if it is a push that finds room: `acceptedPush` for an operation instead of a step. -/
def pushedBy (i : Instr) (s : State) : List Byte :=
  match i with
  | .rbPush v => if s.count.toNat < s.N then [v] else []
  | .rbPushd v => if s.count.toNat < s.N then [v] else []
  | _ => []

/-- The byte operation `i` popped, if it is a pop and the state `t` after it carries OK: `poppedByte` for an operation. -/
def poppedBy (i : Instr) (t : State) : List Byte :=
  match i, t.rsp with
  | .rbPop, some ⟨.ok, v, _⟩ => [v.setWidth 8]
  | _, _ => []

/-- From `s` to `t` the bytes `pushed` entered the ring at its tail and the bytes `popped` left it at its head. -/
inductive RingEffect (s : State) : (t : State) → (pushed popped : List Byte) → Prop
  | push (v : Byte) (hc : s.count.toNat < s.N) : RingEffect s (succeed 0 (append v s)) [v] []
  | pop (hc : 0 < s.count.toNat) :
      RingEffect s (succeed (zextByte (memRead s s.first.toNat)) (removed s)) [] [memRead s s.first.toNat]
  | keep {t : State} (ring : SameRing s t) (frame : SameFrame s t) : RingEffect s t [] []

theorem ringEffect_setRsp (s : State) (r : Option Response) : RingEffect s (s.setRsp r) [] [] :=
  .keep (sameRing_setRsp s r) (sameFrame_setRsp s r)

theorem ringEffect_rawPush (st : Status) (v : Byte) (s : State) :
    RingEffect s (rawPush st v s) (if s.count.toNat < s.N then [v] else []) [] := by
  by_cases h : s.count.toNat < s.N
  · rw [rawPush_of_lt st v h, if_pos h]; exact .push v h
  · rw [rawPush_of_not_lt st v h, if_neg h]; exact ringEffect_setRsp s _

/-- The byte a response carries can be read back from its 16 bits (R52). -/
theorem setWidth_zextByte (b : Byte) : (zextByte b).setWidth 8 = b := by simp [zextByte]

theorem ringEffect_rawPop (s : State) : RingEffect s (rawPop s) [] (poppedBy .rbPop (rawPop s)) := by
  by_cases h : 0 < s.count.toNat
  · rw [rawPop_of_pos h]
    have hb : poppedBy .rbPop (succeed (zextByte (memRead s s.first.toNat)) (removed s)) = [memRead s s.first.toNat] :=
      congrArg (fun b => [b]) (setWidth_zextByte _)
    rw [hb]; exact .pop h
  · rw [rawPop_of_not_pos h]; exact ringEffect_setRsp s _

theorem ringEffect_of_isRead {i : Instr} (h : IsRead i) (s : State) : RingEffect s (effect i s) [] [] := by
  rw [effect_of_isRead h s]; exact ringEffect_setRsp s _

/-- What each operation does to the ring. -/
theorem ringEffect_effect (i : Instr) (s : State) : RingEffect s (effect i s) (pushedBy i s) (poppedBy i (effect i s)) := by
  cases i with
  | rbPush v => exact ringEffect_rawPush .full v s
  | rbPushd v => exact ringEffect_rawPush .ok v s
  | rbPop => exact ringEffect_rawPop s
  | rbPeek j => exact ringEffect_of_isRead (.inl ⟨j, rfl⟩) s
  | rbPeekf k => exact ringEffect_of_isRead (.inr (.inl ⟨k, rfl⟩)) s
  | crcClr | crcLd | crcUpd | crcRd | rbLen | csEnter | csExit =>
    exact .keep ⟨rfl, rfl, rfl⟩ ⟨rfl, rfl, rfl, rfl, rfl, rfl⟩

variable {s t : State} {pushed popped : List Byte}

/-- The inputs to come are not touched, whatever happens to the ring. -/
theorem RingEffect.sameFrame (h : RingEffect s t pushed popped) : SameFrame s t := by
  cases h with
  | push v hc => exact ⟨rfl, rfl, rfl, rfl, rfl, rfl⟩
  | pop hc => exact ⟨rfl, rfl, rfl, rfl, rfl, rfl⟩
  | keep ring frame => exact frame

/-- Nothing is lost and nothing is invented: what was buffered and what entered is what left and what is buffered (R41, R104). -/
theorem RingEffect.queue_eq (h : RingEffect s t pushed popped) (hf : s.first.toNat < s.N) :
    queue s ++ pushed = popped ++ queue t := by
  cases h with
  | push v hc => exact (queue_append s v hc).symm
  | pop hc => rw [List.append_nil]; exact queue_eq_cons s hf hc
  | keep ring frame =>
    rw [List.append_nil, List.nil_append, queue_congr ring.mem ring.first ring.count frame.params frame.epoch]

theorem RingEffect.invariant (h : RingEffect s t pushed popped) (hs : Invariant s) : Invariant t := by
  cases h with
  | push v hc => exact (hs.append v hc).congr rfl rfl rfl rfl
  | pop hc => exact (hs.removed hc).congr rfl rfl rfl rfl
  | keep ring frame => exact hs.congr ring.mem ring.first ring.count frame.params

end Sys2Proof.Safety
end

section
/-! A step that is no reset event has a ring effect: the accepted push and the accepted pop of `acceptedPush` and `poppedByte`. -/

namespace Sys2Proof.Safety

open Sys2Proof.Machine

variable {s t : State} {p : Port} {w : Word} {i : Instr}

theorem acceptedPush_of_nothing (h : request s = .nothing) : acceptedPush s = [] := by simp [acceptedPush, h]

theorem poppedByte_of_nothing (t : State) (h : request s = .nothing) : poppedByte s t = [] := by simp [poppedByte, h]

theorem acceptedPush_of_ok (h : request s = .command p w) (hd : decode w = .ok i) : acceptedPush s = pushedBy i s := by
  simp only [acceptedPush, h, hd]; cases i <;> rfl

theorem acceptedPush_of_error {e : DecodeError} (h : request s = .command p w) (hd : decode w = .error e) :
    acceptedPush s = [] := by simp [acceptedPush, h, hd]

/-- An operation that a port does not admit is no push (R58). -/
theorem pushedBy_of_not_admits (s : State) (h : admits p i = false) : pushedBy i s = [] := by
  cases i with
  | rbPush v => rw [admits_rbPush] at h; cases h
  | rbPushd v => rw [admits_rbPushd] at h; cases h
  | _ => rfl

/-- A step that performs an admitted operation popped what the operation popped: port P admits no pop (R58). -/
theorem poppedByte_of_ok (t : State) (h : request s = .command p w) (hd : decode w = .ok i) (ha : admits p i = true) :
    poppedByte s t = poppedBy i t := by
  cases p with
  | C =>
    simp only [poppedByte, h, hd]
    cases i with
    | rbPop =>
      rcases hr : t.rsp with _ | ⟨st, v, d⟩
      · simp [poppedBy, hr]
      · cases st <;> simp [poppedBy, hr]
    | _ => rfl
  | P =>
    simp only [poppedByte, h]
    cases i with
    | rbPop => cases ha
    | _ => rfl

/-- A step that answers ILLEGAL popped nothing (R56). -/
theorem poppedByte_of_illegal (s : State) (ht : t.rsp = some (failed .illegal)) : poppedByte s t = [] := by
  unfold poppedByte
  split
  · split
    · rename_i hr; rw [ht] at hr; cases hr
    · rfl
  · rfl

/-- Taking the turn changes neither the invariant nor which pushes find room. -/
theorem invariant_advance (h : Invariant s) : Invariant (advance s) :=
  h.congr (advance_mem s) (advance_first s) (advance_count s) (advance_params s)

theorem pushedBy_advance (i : Instr) (s : State) : pushedBy i (advance s) = pushedBy i s := by
  simp only [pushedBy, advance_count, State.N, advance_params]

/-- What a step does to the ring. -/
theorem ringEffect_step (hs : step s = .next t) (hr : request s ≠ .reset) :
    RingEffect (advance s) t (acceptedPush s) (poppedByte s t) := by
  rcases step_cases hs with ⟨h, rfl⟩ | ⟨h, -⟩ | ⟨p, w, h, hp⟩
  · rw [acceptedPush_of_nothing h, poppedByte_of_nothing _ h]
    exact ringEffect_setRsp (advance s) (advance s).rsp
  · exact absurd h hr
  · rcases perform_cases hp with ⟨i, hd, ha, rfl⟩ | ⟨hn, rfl⟩
    · rw [advance_port s h] at ha
      rw [acceptedPush_of_ok h hd, poppedByte_of_ok _ h hd ha, ← pushedBy_advance]
      exact ringEffect_effect i (advance s)
    · have hpush : acceptedPush s = [] := by
        cases hd : decode w with
        | ok i => rw [acceptedPush_of_ok h hd]; exact pushedBy_of_not_admits s (hn i hd)
        | error e => exact acceptedPush_of_error h hd
      rw [hpush, poppedByte_of_illegal s rfl]
      exact ringEffect_setRsp (advance s) _

/-- A step that is no reset event keeps the invariant. -/
theorem invariant_step (h : Invariant s) (hs : step s = .next t) (hr : request s ≠ .reset) : Invariant t :=
  (ringEffect_step hs hr).invariant (invariant_advance h)

/-- One step of the conservation law (R41). -/
theorem queue_step (h : Invariant s) (hs : step s = .next t) (hr : request s ≠ .reset) :
    queue s ++ acceptedPush s = poppedByte s t ++ queue t := by
  rw [← advance_queue s]
  exact (ringEffect_step hs hr).queue_eq (invariant_advance h).first_lt

/-- A step that is no reset event takes one turn off the schedule, if there is one. -/
theorem turns_step (hs : step s = .next t) (hr : request s ≠ .reset) : t.turns = s.turns.tail := by
  rw [(ringEffect_step hs hr).sameFrame.turns, advance_turns]

/-- No step is a reset event if the schedule holds none (R150). -/
theorem request_ne_reset (h : Turn.reset ∉ s.turns) : request s ≠ .reset := by
  intro hr
  obtain ⟨ts, hts⟩ := request_reset s hr
  exact h (hts ▸ List.mem_cons_self)

end Sys2Proof.Safety
end

section
/-! The history of a run: the conservation law step by step (R41). -/

namespace Sys2Proof.Safety

open Sys2Proof.Machine

theorem history_succ (n : Nat) {s t : State} (h : step s = .next t) :
    history (n + 1) s = (acceptedPush s ++ (history n t).1, poppedByte s t ++ (history n t).2.1, (history n t).2.2) := by
  simp only [history, h, stateAfter]

/-- What was buffered and what was accepted is what was popped and what is buffered, over any run without a reset event. -/
theorem history_queue_eq (n : Nat) {s : State} (hi : Invariant s) (hnr : Turn.reset ∉ s.turns) :
    queue s ++ (history n s).1 = (history n s).2.1 ++ queue (history n s).2.2 := by
  induction n generalizing s with
  | zero => exact List.append_nil _
  | succ n ih =>
    obtain ⟨t, ht⟩ := step_eq_next s
    have hr := request_ne_reset hnr
    have hnr' : Turn.reset ∉ t.turns := by
      rw [turns_step ht hr]; exact fun hm => hnr (List.mem_of_mem_tail hm)
    rw [history_succ n ht]
    calc queue s ++ (acceptedPush s ++ (history n t).1)
        = poppedByte s t ++ (queue t ++ (history n t).1) := by
          rw [← List.append_assoc, queue_step hi ht hr, List.append_assoc]
      _ = poppedByte s t ++ (history n t).2.1 ++ queue (history n t).2.2 := by
          rw [ih (invariant_step hi ht hr) hnr', List.append_assoc]

/-- Settles O47, by induction on the number of steps: every step keeps the invariant and what `RingEffect.queue_eq` conserves. From an
empty queue the popped bytes are the front of the accepted ones. -/
theorem fifoOrderPreserved : Obligations.FifoOrderPreserved := by
  intro n s hi hnr
  have h := history_queue_eq n hi hnr
  refine ⟨h, fun hq j hj => ?_⟩
  rw [hq, List.nil_append] at h
  rw [h, List.getElem?_append_left hj]

end Sys2Proof.Safety
end

section
/-! Which operations can be repeated (R37): reads write nothing and a failed operation writes nothing, a pop and a CRC update do. -/

namespace Sys2Proof.Safety

open Sys2Proof.Machine

theorem sameBlock_setRsp (s : State) (r : Option Response) : SameBlock s (s.setRsp r) := ⟨rfl, rfl, rfl, rfl, rfl⟩

/-- A read on port C leaves everything but the response as it was, and answers the same again. -/
theorem exec_read {i : Instr} {s : State} (hp : s.port = .C) (h : IsRead i) :
    ∃ r, exec i s = .next (s.setRsp r) ∧ exec i (s.setRsp r) = .next (s.setRsp r) := by
  have hC (r : Option Response) : admits (s.setRsp r).port i = true := by rw [State.setRsp_port, hp, admits_C]
  exact ⟨_, (exec_of (hC s.rsp)).trans (congrArg _ (effect_of_isRead h s)),
    (exec_of (hC _)).trans (congrArg _ (effect_setRsp_of_isRead h s _))⟩

/-- A pop of a buffer that is not empty removes the byte it answers (R97). -/
theorem exec_rbPop_of_pos {s : State} (hp : s.port = .C) (hf : s.first.toNat < s.N) (hc : 0 < s.count.toNat) :
    ∃ (t : State) (b : Byte), exec .rbPop s = .next t ∧ queue s = b :: queue t ∧ t.rsp = some ⟨.ok, zextByte b, []⟩ := by
  have hC : admits s.port .rbPop = true := by rw [hp, admits_C]
  exact ⟨_, memRead s s.first.toNat, (exec_of hC).trans (congrArg _ (rawPop_of_pos hc)), queue_eq_cons s hf hc, rfl⟩

/-- The same update twice consumes the two-byte message (R72, R79). -/
theorem exec_crcUpd_twice (b : Byte) {s : State} (hp : s.port = .C) :
    ∃ t u, exec (.crcUpd b) s = .next t ∧ exec (.crcUpd b) t = .next u ∧
      t.crc = crc8Incremental s.crc [b] ∧ u.crc = crc8Incremental s.crc [b, b] := by
  have hC : admits s.port (.crcUpd b) = true := by rw [hp, admits_C]
  exact ⟨_, _, exec_of hC, exec_of (s := effect (.crcUpd b) s) hC, rfl, rfl⟩

theorem rawPush_ok_or_fail (whenFull : Status) (v : Byte) (s : State) :
    (∃ x d, (rawPush whenFull v s).rsp = some ⟨.ok, x, d⟩) ∨ ∃ st, rawPush whenFull v s = fail st s := by
  by_cases h : s.count.toNat < s.N
  · exact .inl ⟨_, _, congrArg State.rsp (rawPush_of_lt whenFull v h)⟩
  · exact .inr ⟨_, rawPush_of_not_lt whenFull v h⟩

/-- Every operation answers OK or fails, and `fail` writes the response alone (R26, R132). -/
theorem effect_ok_or_fail (i : Instr) (s : State) :
    (∃ v d, (effect i s).rsp = some ⟨.ok, v, d⟩) ∨ ∃ st, effect i s = fail st s := by
  cases i with
  | rbPush v => exact rawPush_ok_or_fail .full v s
  | rbPushd v => exact rawPush_ok_or_fail .ok v s
  | rbPop =>
    by_cases h : 0 < s.count.toNat
    · exact .inl ⟨_, _, congrArg State.rsp (rawPop_of_pos h)⟩
    · exact .inr ⟨_, rawPop_of_not_pos h⟩
  | rbPeek j =>
    by_cases h : j.toNat < s.count.toNat
    · exact .inl ⟨_, _, congrArg State.rsp (rawPeek_of_lt h)⟩
    · exact .inr ⟨_, rawPeek_of_not_lt h⟩
  | rbPeekf k =>
    by_cases h : k.toNat ≤ s.count.toNat
    · exact .inl ⟨_, _, congrArg State.rsp (rawPeekf_of_le h)⟩
    · exact .inr ⟨_, rawPeekf_of_not_le h⟩
  | crcClr | crcLd | crcUpd | crcRd | rbLen | csEnter | csExit => exact .inl ⟨_, _, rfl⟩

/-- On either port an operation that does not answer OK is a `fail` (R26, R132). -/
theorem exec_eq_fail {i : Instr} {s t : State} {r : Response} (h : exec i s = .next t) (hr : t.rsp = some r)
    (hst : r.st ≠ .ok) : t = fail r.st s := by
  have of_fail {st : Status} (ht : t = fail st s) : t = fail r.st s := by
    rw [ht, fail_rsp] at hr; cases hr; exact ht
  rcases exec_cases h with ⟨-, rfl⟩ | ⟨-, ht⟩
  · rcases effect_ok_or_fail i s with ⟨v, d, hok⟩ | ⟨st, hf⟩
    · rw [hok] at hr; cases hr; exact absurd rfl hst
    · exact of_fail hf
  · exact of_fail ht

/-- Settles O41: the two reasons why nothing is written are `exec_read` and `exec_eq_fail`; a pop shortens the queue, and the CRC
update's values are those of the one-byte and the two-byte message. -/
theorem readsHaveNoSideEffect : Obligations.ReadsHaveNoSideEffect := by
  refine ⟨fun i s hp hi => ?_, fun s hp hf hc => ?_, fun b s hp => ?_, fun s hp h0 => ?_, fun i s t r h hr hst => ?_⟩
  · obtain ⟨r, h, h'⟩ := exec_read hp hi
    exact ⟨_, h, sameBlock_setRsp s r, sameFrame_setRsp s r, h'⟩
  · obtain ⟨t, b, h, hq, hr⟩ := exec_rbPop_of_pos hp hf hc
    exact ⟨t, b, h, hq, hr, hq ▸ (List.cons_ne_self b (queue t)).symm⟩
  · obtain ⟨t, u, ht, hu, -, hcrc⟩ := exec_crcUpd_twice b hp
    exact ⟨t, u, ht, hu, hcrc⟩
  · obtain ⟨t, u, ht, hu, hcrc, hcrc'⟩ := exec_crcUpd_twice 0x01 hp
    rw [h0] at hcrc hcrc'
    exact ⟨t, u, ht, hu, hcrc.trans (by decide), hcrc'.trans (by decide)⟩
  · rw [exec_eq_fail h hr hst]; exact sameBlock_setRsp s _

end Sys2Proof.Safety
end

section
/-! The checksum functions: the loop of R70 is a fold of the table, and the table is eight shift steps of the bit form (R74). -/

namespace Sys2Proof.Safety

open Sys2Proof.Machine

/-- The loop of R70, from any running value, is the fold of the table over the message. -/
theorem crc8Incremental_eq_foldl (c : Byte) (m : List Byte) :
    crc8Incremental c m = m.foldl (fun c b => TABLE (c ^^^ b)) c := by
  induction m generalizing c with
  | nil => rfl
  | cons b m ih => exact ih (TABLE (c ^^^ b))

/-- The running value after `a` is all that the rest of the message needs (R72). -/
theorem crc8Incremental_append (c : Byte) (a b : List Byte) :
    crc8Incremental c (a ++ b) = crc8Incremental (crc8Incremental c a) b := by
  simp only [crc8Incremental_eq_foldl, List.foldl_append]

/-- Settles O23: `crc8Incremental` is a fold, and a fold over an append is two folds; `crc8` starts it at 0x00. -/
theorem crc8Composes : Obligations.Crc8Composes :=
  ⟨rfl, crc8Incremental_eq_foldl 0x00, fun _ => rfl, fun _ => rfl, crc8Incremental_append, crc8Incremental_append 0x00⟩

/-- The 256 listed entries against the shift steps of R76, one by one. -/
theorem TABLE_eq_crcShifts : ∀ b : Byte, TABLE b = crcShifts 8 b := by decide +kernel

/-- Settles O24: on the one-byte message `[b]` both loops start from `0x00 ^ b = b`. -/
theorem tableIsBitwiseReference : Obligations.TableIsBitwiseReference := by
  intro b
  have hxor : (0x00 : Byte) ^^^ b = b := BitVec.zero_xor
  constructor
  · calc TABLE b = crcShifts 8 b := TABLE_eq_crcShifts b
      _ = crcShifts 8 (0x00 ^^^ b) := by rw [hxor]
      _ = crc8Bitwise 0x00 [b] := rfl
  · calc crc8 [b] = TABLE (0x00 ^^^ b) := rfl
      _ = TABLE b := by rw [hxor]

end Sys2Proof.Safety
end

section
/-! The operations of unit CRC on port C: what each writes is a function of CRC alone (R77 to R80, R83). -/

namespace Sys2Proof.Safety

open Sys2Proof.Machine

/-- On port C every operation is performed (R58). -/
theorem exec_of_port_C (i : Instr) {s : State} (hp : s.port = .C) : exec i s = .next (effect i s) :=
  exec_of (by rw [hp, admits_C])

/-- A CRC operation writes CRC and its response, both from the old CRC alone, and answers OK with no data (R83). -/
theorem effect_of_isCrc {i : Instr} (h : isCrc i = true) :
    ∃ (newCrc : Byte → Byte) (val : Byte → Half), ∀ s : State,
      effect i s = { s with crc := newCrc s.crc, rsp := some ⟨.ok, val s.crc, []⟩ } := by
  cases i with
  | crcClr => exact ⟨fun _ => 0x00, fun _ => 0, crcWrite_eq 0x00⟩
  | crcLd v => exact ⟨fun _ => v, fun _ => 0, crcWrite_eq v⟩
  | crcUpd b => exact ⟨fun c => TABLE (c ^^^ b), fun _ => 0, fun s => crcWrite_eq (TABLE (s.crc ^^^ b)) s⟩
  | crcRd => exact ⟨id, zextByte, fun _ => rfl⟩
  | rbPush | rbPushd | rbPop | rbPeek | rbPeekf | rbLen | csEnter | csExit => cases h

/-- Settles O28: port C performs the operation, and `crcWrite_eq` says what it writes. -/
theorem crcClrEffect : Obligations.CrcClrEffect :=
  ⟨rfl, fun s hp => (exec_of_port_C .crcClr hp).trans (congrArg _ (crcWrite_eq 0x00 s))⟩

/-- Zero extension leaves the upper byte of a value clear (R26, R52). -/
theorem upperByte_zextByte (b : Byte) : (zextByte b).extractLsb' 8 8 = 0 := by
  ext i hi
  simp [zextByte]

/-- Settles O31: port C performs the operation, whose answer is the zero extension of CRC. -/
theorem crcRdEffect : Obligations.CrcRdEffect :=
  ⟨rfl, fun _ hp => exec_of_port_C .crcRd hp, fun s => upperByte_zextByte s.crc⟩

/-- Settles O32: by `effect_of_isCrc` the next state differs in CRC and the response only, and both are functions of the old CRC, so
a state with the same CRC gives the same. -/
theorem crcUnitIsIsolated : Obligations.CrcUnitIsIsolated := by
  intro i s hi hp
  obtain ⟨newCrc, val, heffect⟩ := effect_of_isCrc hi
  have hexec {u : State} (hu : u.port = .C) :
      exec i u = .next { u with crc := newCrc u.crc, rsp := some ⟨.ok, val u.crc, []⟩ } := by
    rw [exec_of_port_C i hu, heffect u]
  refine ⟨_, val s.crc, hexec hp, rfl, ⟨rfl, rfl, rfl⟩, rfl, ⟨rfl, rfl, rfl, rfl, rfl, rfl⟩, fun u hu hcrc => ?_⟩
  exact ⟨_, hexec hu, by rw [hcrc], by rw [hcrc]⟩

end Sys2Proof.Safety
end

section
/-! The pushes, the pop and the length: each answer is that of the raw operation, with the wrapper taken away (R93, R95, R97, R103). -/

namespace Sys2Proof.Safety

open Sys2Proof.Machine

/-- RB.PUSH on either port is the raw push that answers FULL on a full buffer (R58, R93). -/
theorem exec_rbPush (v : Byte) (s : State) : exec (.rbPush v) s = .next (rawPush .full v s) :=
  exec_of (admits_rbPush s.port v)

/-- RB.PUSHD on either port is the raw push that answers OK on a full buffer (R58, R95). -/
theorem exec_rbPushd (v : Byte) (s : State) : exec (.rbPushd v) s = .next (rawPush .ok v s) :=
  exec_of (admits_rbPushd s.port v)

/-- What an operation that is a raw push changes and what it leaves unchanged while COUNT < N, whatever it would answer on a full
buffer. -/
theorem exec_push_of_lt {i : Instr} {whenFull : Status} {v : Byte} {s : State} (hi : exec i s = .next (rawPush whenFull v s))
    (h : s.count.toNat < s.N) :
    ∃ t, exec i s = .next t ∧ t.count.toNat = s.count.toNat + 1 ∧
      memRead t (writeIndex s) = v ∧ (∀ a, a ≠ writeIndex s → memRead t a = memRead s a) ∧
      t.first = s.first ∧ t.crc = s.crc ∧ t.ie = s.ie ∧ SameFrame s t ∧ t.rsp = some ⟨.ok, 0, []⟩ ∧
      queue t = queue s ++ [v] := by
  have hexec : exec i s = .next (succeed 0 (append v s)) := hi.trans (congrArg _ (rawPush_of_lt whenFull v h))
  exact ⟨_, hexec, append_count s (v := v) h, memRead_append_self s v, fun _ ha => memRead_append_ne s ha,
    rfl, rfl, rfl, ⟨rfl, rfl, rfl, rfl, rfl, rfl⟩, rfl, queue_append s v h⟩

/-- An operation that is a raw push writes its response alone on a full buffer. -/
theorem exec_push_of_full {i : Instr} {whenFull : Status} {v : Byte} {s : State} (hi : exec i s = .next (rawPush whenFull v s))
    (h : s.N ≤ s.count.toNat) : exec i s = .next (fail whenFull s) :=
  hi.trans (congrArg _ (rawPush_of_not_lt whenFull v h.not_gt))

/-- The two variants leave the same state but for the response, and that one differs on a full buffer only (R95). -/
theorem rawPush_ok_eq_setRsp (whenFull : Status) (v : Byte) (s : State) :
    rawPush .ok v s = (rawPush whenFull v s).setRsp (some ⟨.ok, 0, []⟩) := by
  by_cases h : s.count.toNat < s.N
  · rw [rawPush_of_lt .ok v h, rawPush_of_lt whenFull v h]; rfl
  · rw [rawPush_of_not_lt .ok v h, rawPush_of_not_lt whenFull v h]; rfl

/-- Settles O35: RB.PUSH is `rawPush .full`, which appends while COUNT < N and is `fail .full` otherwise. -/
theorem rbPushEffect : Obligations.RbPushEffect :=
  ⟨fun _ => rfl, fun _ => rfl, fun v s => exec_push_of_lt (exec_rbPush v s), fun v s => exec_push_of_full (exec_rbPush v s)⟩

/-- Settles O36: RB.PUSHD is `rawPush .ok`, so it appends as RB.PUSH does, and on a full buffer `fail .ok` writes the response alone. -/
theorem rbPushdEffect : Obligations.RbPushdEffect :=
  ⟨fun _ => rfl, fun v s => exec_push_of_lt (exec_rbPushd v s), fun v s => exec_push_of_full (exec_rbPushd v s),
    fun v s => ⟨_, exec_rbPush v s, (exec_rbPushd v s).trans (congrArg _ (rawPush_ok_eq_setRsp .full v s))⟩⟩

/-- An accepted pop on port C: the oldest byte is answered, the state is the one after a removal (R97). -/
theorem exec_rbPop_eq_removed {s : State} (hp : s.port = .C) (hc : 0 < s.count.toNat) :
    exec .rbPop s = .next (succeed (zextByte (memRead s s.first.toNat)) (removed s)) :=
  (exec_of_port_C .rbPop hp).trans (congrArg _ (rawPop_of_pos hc))

/-- A pop of an empty buffer on port C (R97). -/
theorem exec_rbPop_of_empty {s : State} (hp : s.port = .C) (hc : s.count = 0) : exec .rbPop s = .next (fail .empty s) :=
  (exec_of_port_C .rbPop hp).trans (congrArg _ (rawPop_of_not_pos (by simp [hc])))

/-- Settles O37: an accepted pop leaves `removed s`, whose FIRST is `nextFirst s`, whose COUNT is one lower, whose storage is that of
`s`, and whose queue is the tail of the queue before. -/
theorem rbPopEffect : Obligations.RbPopEffect := by
  refine ⟨rfl, fun s hp hc => exec_rbPop_eq_removed hp hc, fun s hp hf hc => ?_, fun s hp hc => exec_rbPop_of_empty hp hc⟩
  have hcount : (s.count - 1).toNat + 1 = s.count.toNat := by rw [pred_toNat hc]; omega
  exact ⟨_, memRead s s.first.toNat, exec_rbPop_eq_removed hp hc, queue_eq_cons s hf hc, rfl, hcount,
    nextFirst_toNat s, memRead_congr rfl rfl⟩

/-- Settles O40: port C performs `rawLen`, which answers COUNT; COUNT is the queue's length, and the invariant bounds it by N. -/
theorem rbLenEffect : Obligations.RbLenEffect :=
  ⟨rfl, fun _ hp => exec_of_port_C .rbLen hp, fun s => (queue_length s).symm,
    fun s h => (queue_length s).trans_le h.count_le⟩

end Sys2Proof.Safety
end

section
/-! Interrupt masking: the wrapper's net effect on IE is none, and only the two primitives write IE (R120, R122, R123, R126). -/

namespace Sys2Proof.Safety

open Sys2Proof.Machine

/-- A ring-buffer operation keeps IE (R120). -/
theorem effect_ie_of_isRb {i : Instr} (h : isRb i = true) (s : State) : (effect i s).ie = s.ie := by
  cases i with
  | rbPush v => exact rawPush_ie s .full v
  | rbPushd v => exact rawPush_ie s .ok v
  | rbPop => exact rawPop_ie s
  | rbPeek j => exact rawPeek_ie s j
  | rbPeekf k => exact rawPeekf_ie s k
  | rbLen => exact rawLen_ie s
  | crcClr | crcLd | crcUpd | crcRd | csEnter | csExit => cases h

/-- What a ring-buffer operation does and answers does not depend on IE (R120). -/
theorem effect_setIe_of_isRb {i : Instr} (h : isRb i = true) (s : State) (b : Bool) :
    effect i (s.setIe b) = (effect i s).setIe b := by
  cases i with
  | rbPush v => exact rawPush_setIe s .full v b
  | rbPushd v => exact rawPush_setIe s .ok v b
  | rbPop => exact rawPop_setIe s b
  | rbPeek j => exact rawPeek_setIe s j b
  | rbPeekf k => exact rawPeekf_setIe s k b
  | rbLen => exact rawLen_setIe s b
  | crcClr | crcLd | crcUpd | crcRd | csEnter | csExit => cases h

/-- On either port a ring-buffer operation keeps IE, and from the state with another IE it reaches the same state but for that IE. -/
theorem exec_keeps_ie_of_isRb {i : Instr} (h : isRb i = true) (s : State) :
    ∃ t, exec i s = .next t ∧ t.ie = s.ie ∧ ∀ b, exec i (s.setIe b) = .next (t.setIe b) := by
  cases ha : admits s.port i with
  | true =>
    exact ⟨_, exec_of ha, effect_ie_of_isRb h s,
      fun b => (exec_of (s := s.setIe b) ha).trans (congrArg _ (effect_setIe_of_isRb h s b))⟩
  | false => exact ⟨_, exec_of_not ha, rfl, fun b => exec_of_not (s := s.setIe b) ha⟩

/-- On port C an operation is performed as its meaning says, wrapper included (R58). -/
theorem admitted_of_port_C (i : Instr) (body : State → State) {s : State} (hp : s.port = .C) :
    admitted i s body = .next (body s) :=
  admitted_of (by rw [hp, admits_C])

/-- A word the port does not accept answers ILLEGAL and writes the response alone (R56, R58). -/
theorem perform_of_not_accepts {w : Word} {s : State} (h : accepts s.port w = false) :
    perform w s = .next (fail .illegal s) := by
  unfold accepts at h
  cases hd : decode w with
  | error e => exact perform_error s hd
  | ok i =>
    rw [hd] at h
    rw [perform_ok s hd, exec_of_not h]

/-- Settles O53: the first six clauses are the meanings' own wrapper once admission is decided; that it has no net effect on IE is
`exec_keeps_ie_of_isRb`. -/
theorem wrapperRestoresInterruptEnable : Obligations.WrapperRestoresInterruptEnable := by
  refine ⟨fun v s => admitted_of (admits_rbPush s.port v), fun v s => admitted_of (admits_rbPushd s.port v),
    fun s hp => admitted_of_port_C .rbPop (wrapped rawPop) hp,
    fun j s hp => admitted_of_port_C (.rbPeek j) (wrapped (rawPeek j)) hp,
    fun k s hp => admitted_of_port_C (.rbPeekf k) (wrapped (rawPeekf k)) hp,
    fun s hp => admitted_of_port_C .rbLen (wrapped rawLen) hp,
    fun i s hi => exec_keeps_ie_of_isRb hi s, fun w s t hw ht => ?_⟩
  rw [perform_of_not_accepts hw] at ht
  cases ht; rfl

/-- The operations port P admits are ring-buffer operations (R58). -/
theorem isRb_of_admits_P {i : Instr} (h : admits .P i = true) : isRb i = true := by
  cases i with
  | rbPush | rbPushd => rfl
  | crcClr | crcLd | crcUpd | crcRd | rbPop | rbPeek | rbPeekf | rbLen | csEnter | csExit => cases h

/-- No command word on port P changes IE: it is a push, or it answers ILLEGAL (R56, R58, R120). -/
theorem perform_ie_of_port_P {w : Word} {s t : State} (hp : s.port = .P) (h : perform w s = .next t) : t.ie = s.ie := by
  rcases perform_cases h with ⟨i, -, ha, rfl⟩ | ⟨-, rfl⟩
  · rw [hp] at ha
    exact effect_ie_of_isRb (isRb_of_admits_P ha) s
  · rfl

/-- Settles O20: the command is presented only with IE = 1 (`request_P`), taking the turn keeps IE, and what port P performs keeps it
too (`perform_ie_of_port_P`). -/
theorem producerStepKeepsInterruptsEnabled : Obligations.ProducerStepKeepsInterruptsEnabled := by
  intro s w h
  have hie : s.ie = true := request_P s h
  obtain ⟨t, ht⟩ := perform_eq_next w (advance s)
  have hkeep : t.ie = s.ie := (perform_ie_of_port_P (advance_port s h) ht).trans (advance_ie s)
  exact ⟨hie, t, (step_of_command s h).trans ht, hkeep.trans hie⟩

/-- Settles O54: port C performs the operation; where IE is 0 already, the flag answered is 0 and clearing IE leaves the state as
it was. -/
theorem csEnterEffect : Obligations.CsEnterEffect := by
  refine ⟨rfl, fun s hp => exec_of_port_C .csEnter hp, fun s hp hie => ?_⟩
  have hself : s.setIe false = s := by rw [← hie, State.setIe_self]
  have heffect : effect .csEnter s = succeed 0 s := by
    show succeed (zextFlag s.ie) (s.setIe false) = succeed 0 s
    rw [hself, hie]; rfl
  exact (exec_of_port_C .csEnter hp).trans (congrArg _ heffect)

/-- Settles O55: port C performs the operation, which writes the operand to IE. -/
theorem csExitEffect : Obligations.CsExitEffect :=
  ⟨fun _ => rfl, fun b _ hp => exec_of_port_C (.csExit b) hp⟩

end Sys2Proof.Safety
end

section
/-! Failures: a command word is answered OK or it is a `fail`, which writes its response alone (R132). -/

namespace Sys2Proof.Safety

open Sys2Proof.Machine

/-- Every command word answers OK or fails: an admitted operation by `effect_ok_or_fail`, any other word with ILLEGAL (R56, R58). -/
theorem perform_ok_or_fail {w : Word} {s t : State} (h : perform w s = .next t) :
    (∃ v d, t.rsp = some ⟨.ok, v, d⟩) ∨ ∃ st, t = fail st s := by
  rcases perform_cases h with ⟨i, -, -, rfl⟩ | ⟨-, rfl⟩
  · exact effect_ok_or_fail i s
  · exact .inr ⟨.illegal, rfl⟩

/-- Settles O42: a performed command word answers OK, where nothing is claimed, or is a `fail`, whose response is `(st, 0, [])` and
which writes nothing else; RB.PUSHD on a full buffer is `fail .ok`. -/
theorem failureRecordsNothing : Obligations.FailureRecordsNothing := by
  refine ⟨fun w s => ?_, fun v s h => exec_push_of_full (exec_rbPushd v s) h.ge⟩
  obtain ⟨t, ht⟩ := perform_eq_next w s
  rcases perform_ok_or_fail ht with ⟨v, d, hok⟩ | ⟨st, rfl⟩
  · exact ⟨t, _, ht, hok, fun hst => absurd rfl hst⟩
  · exact ⟨_, _, ht, fail_rsp st s, fun _ => ⟨rfl, rfl, sameBlock_setRsp s _, sameFrame_setRsp s _⟩⟩

end Sys2Proof.Safety
end

section
/-! Command words and responses: decoding and encoding are inverse to each other, and the fields stand where the map says (R50, R54). -/

namespace Sys2Proof.Safety

open Sys2Proof.Machine

theorem selects_iff {r : Row} {w : Word} : r.selects w = true ↔ w &&& r.mask = r.pattern := by simp [Row.selects]

/-- The encoding of every instruction selects a row of its own format, which reads the instruction back. -/
theorem encode_selects_row (i : Instr) : Laws.EncodeSelectsRow.Statement i := by
  cases i with
  | crcClr => exact Laws.EncodeSelectsRow.crcClr
  | crcLd v => exact Laws.EncodeSelectsRow.crcLd v
  | crcUpd b => exact Laws.EncodeSelectsRow.crcUpd b
  | crcRd => exact Laws.EncodeSelectsRow.crcRd
  | rbPush v => exact Laws.EncodeSelectsRow.rbPush v
  | rbPushd v => exact Laws.EncodeSelectsRow.rbPushd v
  | rbPop => exact Laws.EncodeSelectsRow.rbPop
  | rbPeek j => exact Laws.EncodeSelectsRow.rbPeek j
  | rbPeekf k => exact Laws.EncodeSelectsRow.rbPeekf k
  | rbLen => exact Laws.EncodeSelectsRow.rbLen
  | csEnter => exact Laws.EncodeSelectsRow.csEnter
  | csExit b => exact Laws.EncodeSelectsRow.csExit b

theorem decode_encode (i : Instr) : decode (encode i) = .ok i := by
  obtain ⟨r, hr, -, hs, hb⟩ := encode_selects_row i
  rw [decode_of_selects hr hs, hb]

/-- Settles O9: the encoded word selects a row that reads the instruction back, and decoding reads the selected row. -/
theorem decodeOfEncodeIsTheInstruction : Obligations.DecodeOfEncodeIsTheInstruction :=
  fun i _ => decode_encode i

/-- The operand field of format B as a part of the word (R51). -/
theorem setWidth_argByte (w : Word) : (argByte (wordARG w)).setWidth 32 = w &&& 0x000000FF := by
  ext i hi
  simp [argByte, wordARG]
  interval_cases i <;> simp

/-- The operand field of format I as a part of the word (R51). -/
theorem setWidth_wordARG (w : Word) : (wordARG w).setWidth 32 = w &&& 0x0000FFFF := by
  ext i hi
  simp [wordARG]
  interval_cases i <;> simp

/-- The operand field of format F as a part of the word (R51). -/
theorem setWidth_argFlag (w : Word) : (BitVec.ofBool (argFlag (wordARG w))).setWidth 32 = w &&& 0x00000001 := by
  ext i hi
  simp [argFlag, wordARG]
  interval_cases i <;> simp

/-- What a row builds from a word encodes to the row's pattern with the word's unmasked bits, whether the word selects it or not. -/
theorem encode_build {r : Row} (hr : r ∈ opcodeMap) (w : Word) :
    encode (r.build (wordARG w)) = r.pattern ||| (w &&& ~~~r.mask) := by
  simp only [opcodeMap, List.mem_cons, List.not_mem_nil, or_false] at hr
  rcases hr with rfl | rfl | rfl | rfl | rfl | rfl | rfl | rfl | rfl | rfl | rfl | rfl <;>
    simp [encode, setWidth_argByte, setWidth_wordARG, setWidth_argFlag]

/-- Settles O10: the selected row fixes the masked bits of the word, the operand holds the others, and together they are the word. -/
theorem encodeOfDecodeIsTheWord : Obligations.EncodeOfDecodeIsTheWord := by
  intro w i h
  obtain ⟨r, hr, hs, rfl⟩ := decode_ok h
  have hpattern : r.pattern = w &&& r.mask := (selects_iff.1 hs).symm
  rw [encode_build hr, hpattern]
  ext j hj
  cases hw : w[j] <;> simp [hw]

/-- A selected row has no stray bit in bits 23:16: "every mask includes" them (R54). -/
theorem wordMBZ_of_selects {r : Row} (hr : r ∈ opcodeMap) {w : Word} (h : r.selects w = true) : wordMBZ w = 0 := by
  have hm : r.mask.extractLsb' 16 8 = 255#8 ∧ r.pattern.extractLsb' 16 8 = 0#8 := by
    simp only [opcodeMap, List.mem_cons, List.not_mem_nil, or_false] at hr
    rcases hr with rfl | rfl | rfl | rfl | rfl | rfl | rfl | rfl | rfl | rfl | rfl | rfl <;> decide
  calc wordMBZ w = wordMBZ w &&& 255#8 := (BitVec.and_allOnes (x := wordMBZ w)).symm
    _ = (w &&& r.mask).extractLsb' 16 8 := by rw [BitVec.extractLsb'_and, hm.1]; rfl
    _ = 0 := by rw [selects_iff.1 h, hm.2]; rfl

/-- An operand in the low bits of a word whose ARG is clear is the word's ARG (R50, R51). -/
theorem wordARG_or_setWidth {n : Nat} (hn : n ≤ 16) (pattern : Word) (hp : wordARG pattern = 0) (v : BitVec n) :
    (wordARG (pattern ||| v.setWidth 32)).toNat = v.toNat := by
  have hv : v.toNat < 2 ^ 16 := v.isLt.trans_le (Nat.pow_le_pow_right (by decide) hn)
  have hor : wordARG (pattern ||| v.setWidth 32) = wordARG (v.setWidth 32) := by
    rw [wordARG, BitVec.extractLsb'_or]
    exact (congrArg (· ||| _) hp).trans BitVec.zero_or
  rw [hor, wordARG, BitVec.extractLsb'_toNat, BitVec.toNat_setWidth, Nat.shiftRight_zero]
  omega

theorem wordARG_encode (i : Instr) : (wordARG (encode i)).toNat = i.operand.getD 0 := by
  cases i with
  | crcLd v | crcUpd v | rbPush v | rbPushd v | rbPeek v | rbPeekf v =>
    exact wordARG_or_setWidth (by decide) _ (by decide) v
  | csExit b =>
    refine (wordARG_or_setWidth (by decide) _ (by decide) (BitVec.ofBool b)).trans ?_
    cases b <;> rfl
  | crcClr | crcRd | rbPop | rbLen | csEnter => rfl

/-- Settles O11: the row of `encode_selects_row` has OPC and MBZ in its mask, and ARG is the operand by `wordARG_encode`. -/
theorem encodingPlacesItsFields : Obligations.EncodingPlacesItsFields := by
  intro i
  obtain ⟨r, hr, hf, hs, hb⟩ := encode_selects_row i
  exact ⟨wordMBZ_of_selects hr hs, wordARG_encode i, r, hr, hf, wordOPC_of_selects hr hs, selects_iff.1 hs, hb⟩

/-- Settles O12: both rows have the OPC of the word, and the opcodes of the map are pairwise distinct. -/
theorem opcodeRowsDoNotOverlap : Obligations.OpcodeRowsDoNotOverlap := by
  intro w j k r q hj hk hr hq
  have hopc {p : Row} (hp : p ∈ opcodeMap) (h : w &&& p.mask = p.pattern) : wordOPC w = p.opc :=
    wordOPC_of_selects hp (selects_iff.2 h)
  have hopcs : r.opc = q.opc := (hopc (List.mem_of_getElem? hj) hr).symm.trans (hopc (List.mem_of_getElem? hk) hq)
  obtain ⟨hj', rfl⟩ := List.getElem?_eq_some_iff.1 hj
  obtain ⟨hk', rfl⟩ := List.getElem?_eq_some_iff.1 hk
  have hd := List.pairwise_iff_getElem.1 opcodeMap_opcs_distinct
  rcases Nat.lt_trichotomy j k with h | h | h
  · exact absurd hopcs (hd j k hj' hk' h)
  · exact h
  · exact absurd hopcs.symm (hd k j hk' hj' h)

/-- Settles O13: the four words are the encodings of the four operations, which decode to them. -/
theorem sampleWordsDecode : Obligations.SampleWordsDecode :=
  ⟨decode_encode (.crcUpd 0x55), decode_encode (.rbPushd 0x77), decode_encode (.rbPeek 65535), decode_encode (.csExit true)⟩

/-- The number of a response word: the status above the 16 bits of the value (R52). -/
theorem toNat_word (r : Response) : r.word.toNat = r.st.code.toNat * 2 ^ 16 + r.val.toNat := by
  rw [Response.word, BitVec.toNat_append, Nat.shiftLeft_eq, BitVec.toNat_append, Nat.mul_comm,
    ← Nat.two_pow_add_eq_or_of_lt r.val.isLt]
  simp [Nat.mul_comm]

/-- Settles O16: the word's number is `toNat_word`; each field is cut out of the two appended parts. -/
theorem responseWordFields : Obligations.ResponseWordFields := by
  intro r
  have hcode : r.st.code.toNat < 5 := by cases r.st <;> decide
  have hval := r.val.isLt
  have hword := toNat_word r
  refine ⟨hword, ?_, ?_, ?_, hcode⟩ <;> apply BitVec.eq_of_toNat_eq <;>
    simp only [BitVec.extractLsb'_toNat, hword, Nat.shiftRight_eq_div_pow, BitVec.ofNat_eq_ofNat, BitVec.toNat_ofNat] <;> omega

end Sys2Proof.Safety
end

section
/-! Reset, and what the invariant says about COUNT and the physical indices (R16, R20, R24, R33, R150, R151). -/

namespace Sys2Proof.Safety

open Sys2Proof.Machine

/-- Settles O1: every field of the reset state is the value `State.resetWith` lists, and N is a successor, so COUNT = 0 is not N. -/
theorem resetLeavesEmptyQueue : Obligations.ResetLeavesEmptyQueue :=
  ⟨rfl, rfl, fun _ => ⟨rfl, rfl, rfl, rfl, rfl, rfl, rfl, rfl, rfl⟩⟩

theorem invariant_resetWith (p : Parameters) : Invariant (State.resetWith p) where
  first_lt := (State.resetWith p).N_pos
  count_le := Nat.zero_le _
  mem_wf := List.Pairwise.nil
  mem_lt := fun _ hc => absurd hc List.not_mem_nil
  window := fun _ hj => absurd hj (Nat.not_lt_zero _)

/-- Settles O2: both indices are 0, and no cell is listed or in the window. -/
theorem resetMeetsInvariant : Obligations.ResetMeetsInvariant :=
  ⟨invariant_resetWith Config.parameters, invariant_resetWith⟩

/-- The first push after reset goes to cell 0 (R93, R95, R151). -/
theorem rawPush_resetWith (whenFull : Status) (v : Byte) (p : Parameters) :
    rawPush whenFull v (State.resetWith p) =
      { State.resetWith p with mem := [(0, v)], count := 1, rsp := some ⟨.ok, 0, []⟩ } := by
  have hindex : writeIndex (State.resetWith p) = 0 := Nat.zero_mod _
  have hlt : (State.resetWith p).count.toNat < (State.resetWith p).N := (State.resetWith p).N_pos
  rw [rawPush_of_lt whenFull v hlt, append, hindex]
  rfl

/-- Settles O4: the reset state serves port C, which performs every operation; the ring-buffer operations find COUNT = 0 < N. -/
theorem resetConsequences : Obligations.ResetConsequences := by
  intro p i k v b hk
  have hexec (j : Instr) : exec j (State.resetWith p) = .next (effect j (State.resetWith p)) := exec_of_port_C j rfl
  have hk : ¬ k.toNat ≤ 0 := fun h => hk (BitVec.eq_of_toNat_eq (Nat.le_zero.1 h))
  have hcrc : TABLE (0x00 ^^^ v) = TABLE v := congrArg TABLE BitVec.zero_xor
  refine ⟨hexec _, hexec _, (hexec _).trans ?_, (hexec _).trans ?_, (hexec _).trans ?_, hexec _, hexec _,
    (hexec _).trans ?_, (hexec _).trans ?_, (hexec _).trans ?_, (hexec _).trans ?_, hexec _, hexec _⟩
  · exact congrArg (fun c => Host.Outcome.next { State.resetWith p with crc := c, rsp := some ⟨.ok, 0, []⟩ }) hcrc
  · exact congrArg _ (rawPush_resetWith .full v p)
  · exact congrArg _ (rawPush_resetWith .ok v p)
  · exact congrArg _ (rawPop_of_not_pos (Nat.not_lt_zero _))
  · exact congrArg _ (rawPeek_of_not_lt (Nat.not_lt_zero _))
  · exact congrArg _ (rawPeekf_of_le (Nat.zero_le _))
  · exact congrArg _ (rawPeekf_of_not_le hk)

theorem flagEmpty_iff (s : State) : flagEmpty s = true ↔ s.count.toNat = 0 := beq_iff_eq

theorem flagFull_iff (s : State) : flagFull s = true ↔ s.count.toNat = s.N := beq_iff_eq

theorem occupancy_of_empty {s : State} (h : s.count.toNat = 0) : occupancy s = .empty := if_pos ((flagEmpty_iff s).2 h)

theorem occupancy_of_full {s : State} (h : s.count.toNat = s.N) : occupancy s = .full := by
  have hne : ¬ flagEmpty s = true := by rw [flagEmpty_iff, h]; exact s.N_pos.ne'
  rw [occupancy, if_neg hne, if_pos ((flagFull_iff s).2 h)]

theorem occupancy_of_between {s : State} (hpos : 0 < s.count.toNat) (hlt : s.count.toNat < s.N) :
    occupancy s = .partiallyFilled := by
  rw [occupancy, if_neg (by rw [flagEmpty_iff]; exact hpos.ne'), if_neg (by rw [flagFull_iff]; exact hlt.ne)]

/-- Settles O7: with COUNT <= N exactly one of COUNT = 0, 0 < COUNT < N and COUNT = N holds, and each fixes the condition. -/
theorem occupancyFollowsCount : Obligations.OccupancyFollowsCount := by
  intro s h
  have hN := s.N_pos
  have hzero : s.count = 0 ↔ s.count.toNat = 0 := BitVec.toNat_inj.symm
  rw [hzero]
  rcases Nat.eq_zero_or_pos s.count.toNat with h0 | hpos
  · rw [occupancy_of_empty h0]; grind
  · rcases Nat.lt_or_eq_of_le h.count_le with hlt | heq
    · rw [occupancy_of_between hpos hlt]; grind
    · rw [occupancy_of_full heq]; grind

/-- Settles O8: FIRST <= N - 1 and j <= N, so the sum is below 2N and reduced by one conditional subtraction. -/
theorem indexSumNeedsOneSubtraction : Obligations.IndexSumNeedsOneSubtraction := by
  intro s j h hj
  have hfirst := h.first_lt
  have hcount := h.count_le
  refine ⟨by omega, ?_, ringIndex_lt s j⟩
  rw [ringIndex_eq_ite s (by omega)]
  split_ifs <;> omega

/-- At a reset event only the turn is taken (R150). -/
theorem advance_of_reset {s : State} (h : request s = .reset) : advance s = s.setTurns s.turns.tail := by
  unfold advance; rw [h]

theorem request_of_reset {s : State} {ts : List Turn} (h : s.turns = .reset :: ts) : request s = .reset := by
  unfold request; rw [h]

/-- Settles O3: the coming turn is a reset event, whose state is that of `State.resetWith` but for the inputs to come. -/
theorem resetEventRestoresResetState : Obligations.ResetEventRestoresResetState := by
  intro s ts hts
  have hr := request_of_reset hts
  refine ⟨_, step_of_reset s hr, ?_⟩
  rw [advance_of_reset hr, hts]
  exact ⟨⟨rfl, rfl, rfl, rfl, rfl⟩, rfl, rfl, rfl, rfl, rfl, rfl⟩

/-- A step keeps the invariant: a reset event restores the reset state, and any other step is `invariant_step`. -/
theorem invariant_of_step {s t : State} (h : Invariant s) (hs : step s = .next t) : Invariant t := by
  by_cases hr : request s = .reset
  · rw [step_of_reset s hr] at hs
    cases hs
    exact (invariant_resetWith (advance s).params).congr rfl rfl rfl rfl
  · exact invariant_step h hs hr

/-- Settles O5, by `invariant_of_step`. -/
theorem stepKeepsInvariant : Obligations.StepKeepsInvariant := fun _ _ h hs => invariant_of_step h hs

theorem params_of_step {s t : State} (hs : step s = .next t) : t.params = s.params := by
  by_cases hr : request s = .reset
  · rw [step_of_reset s hr] at hs
    cases hs
    exact advance_params s
  · exact (ringEffect_step hs hr).sameFrame.params.trans (advance_params s)

/-- A run of `n + 1` steps is a step and a run of `n`, since every state has a next state (R130). -/
theorem run_succ_cases {n : Nat} {s t : State} (h : core.run (n + 1) s = .next t) :
    ∃ u, step s = .next u ∧ core.run n u = .next t := by
  obtain ⟨u, hu⟩ := step_eq_next s
  exact ⟨u, hu, (run_succ s n hu).symm.trans h⟩

/-- What every step keeps, every run keeps. -/
theorem run_keeps {P : State → Prop} (hstep : ∀ s t, P s → step s = .next t → P t) (n : Nat) {s t : State} (hs : P s)
    (h : core.run n s = .next t) : P t := by
  induction n generalizing s with
  | zero => cases h; exact hs
  | succ n ih =>
    obtain ⟨u, hu, hrun⟩ := run_succ_cases h
    exact ih (hstep s u hs hu) hrun

/-- Settles O6: the invariant holds at reset, whatever the inputs to come, and steps keep it and the parameters. -/
theorem reachableIndicesStayInRange : Obligations.ReachableIndicesStayInRange := by
  intro n p ts cs ps t h
  have hinit : Invariant { State.resetWith p with turns := ts, cQueue := cs, pQueue := ps } :=
    (invariant_resetWith p).congr rfl rfl rfl rfl
  have hinv : Invariant t := run_keeps (fun _ _ => invariant_of_step) n hinit h
  have hparams : t.params = p := run_keeps (P := fun u => u.params = p) (fun _ _ hs hu => (params_of_step hu).trans hs) n rfl h
  exact ⟨hinv.first_lt, hinv.count_le, hparams⟩

end Sys2Proof.Safety
end

section
/-! Responses: the status each operation answers, by its own condition (R58, R130, R131), and which operations write IE (R122, R123). -/

namespace Sys2Proof.Safety

open Sys2Proof.Machine

/-- The status of an admitted operation (R131). -/
def statusOf (i : Instr) (s : State) : Status :=
  match i with
  | .rbPush _ => if s.count.toNat < s.N then .ok else .full
  | .rbPop => if 0 < s.count.toNat then .ok else .empty
  | .rbPeek j => if j.toNat < s.count.toNat then .ok else .range
  | .rbPeekf k => if k.toNat ≤ s.count.toNat then .ok else .range
  | _ => .ok

theorem rawPush_rsp (whenFull : Status) (v : Byte) (s : State) :
    (rawPush whenFull v s).rsp = some ⟨if s.count.toNat < s.N then .ok else whenFull, 0, []⟩ := by
  by_cases h : s.count.toNat < s.N
  · rw [rawPush_of_lt whenFull v h, if_pos h]; rfl
  · rw [rawPush_of_not_lt whenFull v h, if_neg h]; rfl

/-- An admitted operation answers, and with the status `statusOf` names. -/
theorem effect_rsp (i : Instr) (s : State) : ∃ v d, (effect i s).rsp = some ⟨statusOf i s, v, d⟩ := by
  cases i with
  | rbPush v => exact ⟨_, _, rawPush_rsp .full v s⟩
  | rbPushd v => exact ⟨_, _, (rawPush_rsp .ok v s).trans (by rw [ite_self]; rfl)⟩
  | rbPop =>
    simp only [effect, statusOf]
    by_cases h : 0 < s.count.toNat
    · rw [rawPop_of_pos h, if_pos h]; exact ⟨_, _, rfl⟩
    · rw [rawPop_of_not_pos h, if_neg h]; exact ⟨_, _, rfl⟩
  | rbPeek j =>
    simp only [effect, statusOf]
    by_cases h : j.toNat < s.count.toNat
    · rw [rawPeek_of_lt h, if_pos h]; exact ⟨_, _, rfl⟩
    · rw [rawPeek_of_not_lt h, if_neg h]; exact ⟨_, _, rfl⟩
  | rbPeekf k =>
    simp only [effect, statusOf]
    by_cases h : k.toNat ≤ s.count.toNat
    · rw [rawPeekf_of_le h, if_pos h]; exact ⟨_, _, rfl⟩
    · rw [rawPeekf_of_not_le h, if_neg h]; exact ⟨_, _, rfl⟩
  | crcClr | crcLd | crcUpd | crcRd | rbLen | csEnter | csExit => exact ⟨_, _, rfl⟩

theorem statusOf_ne_illegal (i : Instr) (s : State) : statusOf i s ≠ .illegal := by
  cases i <;> simp only [statusOf] <;> (try split_ifs) <;> decide

/-- An operation that the port admits answers a status other than ILLEGAL (R58). -/
theorem exec_ne_illegal {i : Instr} {s : State} (h : admits s.port i = true) :
    ∃ t r, exec i s = .next t ∧ t.rsp = some r ∧ r.st ≠ .illegal := by
  obtain ⟨v, d, hr⟩ := effect_rsp i s
  exact ⟨_, _, exec_of h, hr, statusOf_ne_illegal i s⟩

/-- Port P admits nothing but the two pushes (R58). -/
theorem admits_P_eq_false {i : Instr} (h : ∀ v, i ≠ .rbPush v ∧ i ≠ .rbPushd v) : admits .P i = false := by
  cases i with
  | rbPush v => exact absurd rfl (h v).1
  | rbPushd v => exact absurd rfl (h v).2
  | crcClr | crcLd | crcUpd | crcRd | rbPop | rbPeek | rbPeekf | rbLen | csEnter | csExit => rfl

/-- Settles O15: admission decides between the operation's own status, which is never ILLEGAL, and `fail .illegal`. -/
theorem portAdmission : Obligations.PortAdmission := by
  refine fun i s => ⟨fun hp => exec_ne_illegal (by rw [hp, admits_C]), fun _ ⟨v, hv⟩ => exec_ne_illegal ?_, fun hp h => ?_⟩
  · rcases hv with rfl | rfl
    · exact admits_rbPush s.port v
    · exact admits_rbPushd s.port v
  · exact exec_of_not (by rw [hp, admits_P_eq_false h])

/-- FULL is the answer of RB.PUSH at COUNT = N, since COUNT is never above N (R24, R131). -/
theorem statusOf_full_iff (i : Instr) {s : State} (hc : s.count.toNat ≤ s.N) :
    statusOf i s = .full ↔ (∃ v, i = .rbPush v) ∧ s.count.toNat = s.N := by
  cases i with
  | rbPush v => simp [statusOf]; omega
  | _ => simp [statusOf, ite_eq_iff]

theorem statusOf_empty_iff (i : Instr) (s : State) : statusOf i s = .empty ↔ i = .rbPop ∧ s.count = 0 := by
  cases i with
  | rbPop => simp [statusOf, ← BitVec.toNat_inj]
  | _ => simp [statusOf, ite_eq_iff]

theorem statusOf_range_iff (i : Instr) (s : State) :
    statusOf i s = .range ↔
      (∃ j, i = .rbPeek j ∧ s.count.toNat ≤ j.toNat) ∨ (∃ k, i = .rbPeekf k ∧ s.count.toNat < k.toNat) := by
  cases i with
  | rbPeek | rbPeekf => simp [statusOf]
  | _ => simp [statusOf, ite_eq_iff]

/-- Settles O43: a refused operation answers ILLEGAL and is no push; an admitted one answers `statusOf`. -/
theorem statusConditions : Obligations.StatusConditions := by
  intro i s t r hinv h hr
  rcases exec_cases h with ⟨ha, rfl⟩ | ⟨ha, rfl⟩
  · obtain ⟨v, d, hr'⟩ := effect_rsp i s
    rw [hr'] at hr
    cases hr
    simp only [ha, true_and]
    exact ⟨by simp [statusOf_ne_illegal], statusOf_full_iff i hinv.count_le, statusOf_empty_iff i s, statusOf_range_iff i s⟩
  · cases hr
    have hpush : ¬ ∃ v, i = .rbPush v := by
      rintro ⟨v, rfl⟩
      rw [admits_rbPush] at ha; cases ha
    simp [ha, hpush]

/-- Only CS.ENTER and CS.EXIT write IE (R18, R120). -/
theorem effect_ie_of_not_isCs {i : Instr} (h : isCs i = false) (s : State) : (effect i s).ie = s.ie := by
  cases i with
  | rbPush | rbPushd | rbPop | rbPeek | rbPeekf | rbLen => exact effect_ie_of_isRb rfl s
  | crcClr | crcLd | crcUpd | crcRd => rfl
  | csEnter | csExit => cases h

theorem eq_of_isCs {i : Instr} (h : isCs i = true) : i = .csEnter ∨ ∃ b, i = .csExit b := by
  cases i with
  | csEnter => exact .inl rfl
  | csExit b => exact .inr ⟨b, rfl⟩
  | crcClr | crcLd | crcUpd | crcRd | rbPush | rbPushd | rbPop | rbPeek | rbPeekf | rbLen => cases h

/-- An operation that takes IE from 0 to 1 is CS.EXIT 1 (R123). -/
theorem eq_csExit_of_effect_ie {i : Instr} {s : State} (hs : s.ie = false) (ht : (effect i s).ie = true) :
    i = .csExit true := by
  cases hcs : isCs i with
  | false => rw [effect_ie_of_not_isCs hcs, hs] at ht; cases ht
  | true =>
    rcases eq_of_isCs hcs with rfl | ⟨b, rfl⟩
    · cases ht
    · exact congrArg Instr.csExit ht

end Sys2Proof.Safety
end

section
/-! What a turn presents and what is left of the inputs after it, and the steps that follow (R9, R55, R56, R121, R130, R135). -/

namespace Sys2Proof.Safety

open Sys2Proof.Machine

/-- Settles O14: the word does not decode, so taking the turn is followed by `fail .illegal`. -/
theorem illegalWordChangesNothing : Obligations.IllegalWordChangesNothing := by
  intro s p w h hw
  have hd : decode w = .error (illegalReason w) :=
    decode_of_selects_none fun r hr => Bool.eq_false_iff.2 fun hs => hw r hr (selects_iff.1 hs)
  exact ⟨_, (step_of_command s h).trans (perform_error _ hd), rfl, advance_port s h,
    ⟨advance_crc s, advance_mem s, advance_first s, advance_count s, advance_ie s⟩, advance_params s⟩

/-- A performed command word answers on the port being served, with ILLEGAL exactly if the port does not accept the word. -/
theorem perform_rsp {w : Word} {s t : State} (h : perform w s = .next t) :
    t.port = s.port ∧ ∃ r, t.rsp = some r ∧ (accepts s.port w = true → r.st ≠ .illegal) ∧
      (accepts s.port w = false → r = failed .illegal) := by
  rcases perform_cases h with ⟨i, hd, ha, rfl⟩ | ⟨hn, rfl⟩
  · obtain ⟨v, d, hr⟩ := effect_rsp i s
    have hacc : accepts s.port w = true := by simp [accepts, hd, ha]
    exact ⟨(sameFrame_effect i s).port, _, hr, fun _ => statusOf_ne_illegal i s, fun hf => by simp [hacc] at hf⟩
  · have hacc : accepts s.port w = false := by
      unfold accepts
      cases hd : decode w with
      | ok i => exact hn i hd
      | error e => rfl
    exact ⟨rfl, _, rfl, fun ht => by simp [hacc] at ht, fun _ => rfl⟩

/-- The step that performs a command answers on its port, with ILLEGAL exactly if that port does not accept the word. -/
theorem step_rsp {p : Port} {w : Word} {s t : State} (hr : request s = .command p w) (hs : step s = .next t) :
    t.port = p ∧ ∃ r, t.rsp = some r ∧ (accepts p w = true → r.st ≠ .illegal) ∧ (accepts p w = false → r = failed .illegal) := by
  rw [step_of_command s hr] at hs
  have h := perform_rsp hs
  rwa [advance_port s hr] at h

/-- Settles O18: every state has a next state, and what performs a command or an operation writes a response on the port served. -/
theorem everyCommandIsAnswered : Obligations.EveryCommandIsAnswered := by
  refine ⟨step_eq_next, fun s p w hr => ?_, fun i s => ?_⟩
  · obtain ⟨t, ht⟩ := step_eq_next s
    obtain ⟨hp, r, hrsp, -⟩ := step_rsp hr ht
    exact ⟨t, r, ht, hp, hrsp⟩
  · obtain ⟨t, ht⟩ := exec_eq_next i s
    rcases exec_cases ht with ⟨-, rfl⟩ | ⟨-, rfl⟩
    · obtain ⟨v, d, hr⟩ := effect_rsp i s
      exact ⟨_, _, ht, (sameFrame_effect i s).port, hr⟩
    · exact ⟨_, _, ht, rfl, rfl⟩

variable {s : State} {ts : List Turn} {i : Instr}

/-- A consumer turn with a command word that decodes (R9, R55). -/
theorem step_of_consumer {w : Word} {ws : List Word} (hts : s.turns = .consumer :: ts) (hq : s.cQueue = w :: ws)
    (hd : decode w = .ok i) : step s = exec i { s with turns := ts, cQueue := ws, port := .C } := by
  have hr : request s = .command .C w := by simp [request, hts, hq]
  have hadvance : advance s = { s with turns := ts, cQueue := ws, port := .C } := by
    simp only [advance, hr, hts, hq]; rfl
  rw [step_of_command s hr, perform_ok _ hd, hadvance]

/-- A producer turn with IE = 1 and a handler action whose word decodes (R9, R55, R121). -/
theorem step_of_producer {a : HandlerAction} {as : List HandlerAction} (hts : s.turns = .producer :: ts) (hie : s.ie = true)
    (hq : s.pQueue = a :: as) (hd : decode (handlerWord s.params a) = .ok i) :
    step s = exec i { s with turns := ts, pQueue := as, port := .P } := by
  have hr : request s = .command .P (handlerWord s.params a) := by simp [request, hts, hie, hq]
  have hadvance : advance s = { s with turns := ts, pQueue := as, port := .P } := by
    simp only [advance, hr, hts, hq]; rfl
  rw [step_of_command s hr, perform_ok _ hd, hadvance]

/-- Settles O17: `step_of_consumer` and `step_of_producer`; a word placed by `withFetchWord` is the consumer's next. -/
theorem stepRunsDecodedInstruction : Obligations.StepRunsDecodedInstruction := by
  refine ⟨fun _ _ _ _ _ hts hq hd => step_of_consumer hts hq hd,
    fun _ _ _ _ _ hts hie hq hd => step_of_producer hts hie hq hd, fun s w i hd => ?_⟩
  have hw : BitVec.ofNat 32 (w.toNat % 2 ^ 32) = w := by rw [Nat.mod_eq_of_lt w.isLt, BitVec.ofNat_toNat, BitVec.setWidth_eq]
  have hq : (s.withFetchWord 32 w.toNat).cQueue = w :: s.cQueue := congrArg (· :: s.cQueue) hw
  exact step_of_consumer (s := s.withFetchWord 32 w.toNat) rfl hq hd

/-- Settles O19: a producer turn with IE = 0 asks for nothing; otherwise IE can rise only in the effect of a command on port C, which
is CS.EXIT 1 by `eq_csExit_of_effect_ie`, and O10 gives its word. -/
theorem producerHeldWhileMasked : Obligations.ProducerHeldWhileMasked := by
  refine ⟨fun s ts hie hts => ?_, fun s t hie hs ht => ?_⟩
  · have hr : request s = .nothing := by simp [request, hts, hie]
    have hadvance : advance s = { s with turns := ts } := by simp only [advance, hr, hts]; rfl
    rw [step_of_nothing s hr, hadvance]
  · have hadvance : (advance s).ie = false := (advance_ie s).trans hie
    rcases step_cases hs with ⟨-, rfl⟩ | ⟨hr, -⟩ | ⟨p, w, hr, hp⟩
    · rw [hadvance] at ht; cases ht
    · exact .inr hr
    · rcases perform_cases hp with ⟨i, hd, -, rfl⟩ | ⟨-, rfl⟩
      · obtain rfl := eq_csExit_of_effect_ie hadvance ht
        cases p with
        | P => rw [request_P s hr] at hie; cases hie
        | C => rw [hr, encodeOfDecodeIsTheWord w _ hd]; exact .inl rfl
      · rw [fail_ie, hadvance] at ht; cases ht

/-- What PRODUCER_PUSH answers on a full buffer (R7, R93, R95). -/
def whenFull : PushVariant → Status
  | .push => .full
  | .pushd => .ok

theorem exec_producerInstr (variant : PushVariant) (v : Byte) (s : State) :
    exec (producerInstr variant v) s = .next (rawPush (whenFull variant) v s) := by
  cases variant with
  | push => exact exec_rbPush v s
  | pushd => exact exec_rbPushd v s

/-- One receive interrupt is one raw push of the received byte on port P (R135). -/
theorem step_of_receive {v : Byte} {as : List HandlerAction} (hts : s.turns = .producer :: ts) (hie : s.ie = true)
    (hq : s.pQueue = .receive v :: as) :
    step s = .next (rawPush (whenFull s.params.producerPush) v { s with turns := ts, pQueue := as, port := .P }) :=
  (step_of_producer hts hie hq (decode_encode _)).trans (exec_producerInstr _ v _)

theorem step_of_receive_of_full {v : Byte} {as : List HandlerAction} (hts : s.turns = .producer :: ts) (hie : s.ie = true)
    (hq : s.pQueue = .receive v :: as) (h : s.N ≤ s.count.toNat) :
    step s = .next (fail (whenFull s.params.producerPush) { s with turns := ts, pQueue := as, port := .P }) :=
  (step_of_receive hts hie hq).trans (congrArg _ (rawPush_of_not_lt _ v h.not_gt))

theorem queue_rawPush (st : Status) (v : Byte) (s : State) :
    queue (rawPush st v s) = if s.count.toNat < s.N then queue s ++ [v] else queue s := by
  by_cases h : s.count.toNat < s.N
  · rw [rawPush_of_lt st v h, if_pos h]; exact queue_append s v h
  · rw [rawPush_of_not_lt st v h, if_neg h]; rfl

theorem rawPush_crc (st : Status) (v : Byte) (s : State) : (rawPush st v s).crc = s.crc := by
  unfold rawPush; split_ifs <;> rfl

theorem sameFrame_rawPush (st : Status) (v : Byte) (s : State) : SameFrame s (rawPush st v s) := by
  unfold rawPush; split_ifs <;> exact ⟨rfl, rfl, rfl, rfl, rfl, rfl⟩

/-- Settles O21: the step is one raw push (`step_of_receive`); its answer is FULL only for RB.PUSH on a full buffer. -/
theorem receiveInterruptPushesOneByte : Obligations.ReceiveInterruptPushesOneByte := by
  intro s ts b as hts hie hq
  have frame := sameFrame_rawPush (whenFull s.params.producerPush) b { s with turns := ts, pQueue := as, port := .P }
  refine ⟨_, step_of_receive hts hie hq, frame.port, frame.turns, frame.pQueue, rawPush_crc _ b _,
    (rawPush_ie _ _ b).trans hie, queue_rawPush _ b _, (rawPush_rsp _ b _).trans ?_⟩
  change some (Response.mk (if s.count.toNat < s.N then .ok else whenFull s.params.producerPush) 0 []) = _
  cases s.params.producerPush <;> by_cases h : s.count.toNat < s.N <;> simp [h, whenFull]

theorem run_two {s t u : State} (hs : step s = .next t) (ht : step t = .next u) : core.run 2 s = .next u :=
  (run_succ s 1 hs).trans (run_succ t 0 ht)

/-- A consumer turn with a pop, from a queue `b :: q`: the answer is `b`, the queue left is `q` (R97). -/
theorem step_of_pop {ws : List Word} {b : Byte} {q : List Byte} (hts : s.turns = .consumer :: ts)
    (hcq : s.cQueue = encode .rbPop :: ws) (hf : s.first.toNat < s.N) (hq : queue s = b :: q) :
    ∃ t, step s = .next t ∧ queue t = q ∧ t.rsp = some ⟨.ok, zextByte b, []⟩ ∧
      t.turns = ts ∧ t.pQueue = s.pQueue ∧ t.ie = s.ie ∧ t.params = s.params := by
  have hpos : 0 < s.count.toNat := by rw [← queue_length, hq]; exact Nat.succ_pos _
  obtain ⟨hb, hremoved⟩ := List.cons.inj ((queue_eq_cons s hf hpos).symm.trans hq)
  have hpop := exec_rbPop_eq_removed (s := { s with turns := ts, cQueue := ws, port := .C }) rfl hpos
  exact ⟨_, (step_of_consumer hts hcq (decode_encode .rbPop)).trans hpop, hremoved, by rw [← hb]; rfl, rfl, rfl, rfl, rfl⟩

/-- Settles O22: producer first, the push finds the buffer full and the pop takes `b`; consumer first, the pop takes `b` and makes room
for the push. -/
theorem pushAndPopTogetherAtFull : Obligations.PushAndPopTogetherAtFull := by
  intro s b q v ts hinv hie hfull hq both
  constructor
  · have hpush := step_of_receive_of_full (s := both.setTurns (.producer :: .consumer :: ts)) rfl hie rfl hfull.ge
    obtain ⟨t, hpop, hqt, hrsp, -⟩ := step_of_pop (s := fail (whenFull s.params.producerPush)
      { both with turns := .consumer :: ts, pQueue := s.pQueue, port := .P }) rfl rfl hinv.first_lt hq
    exact ⟨t, run_two hpush hpop, hqt, hrsp⟩
  · obtain ⟨t, hpop, hqt, -, hts, hpq, hie', hparams⟩ :=
      step_of_pop (s := both.setTurns (.consumer :: .producer :: ts)) rfl rfl hinv.first_lt hq
    have hroom : t.count.toNat < t.N := by
      have hlength : q.length + 1 = s.count.toNat := by rw [← queue_length, hq]; rfl
      rw [← queue_length, hqt, State.N, hparams]
      exact hlength.trans_le hfull.le
    obtain ⟨u, hpush, -, -, -, -, -, hqu, hrsp⟩ := receiveInterruptPushesOneByte t ts v s.pQueue hts (hie'.trans hie) hpq
    rw [if_pos hroom, hqt] at hqu
    rw [if_pos (.inl hroom)] at hrsp
    exact ⟨u, run_two hpop hpush, hqu, hrsp⟩

end Sys2Proof.Safety
end

section
/-! The arithmetic of the CRC: one shift step is linear, so the table and both loops are (R76, R82); who writes CRC (R11, R81). -/

namespace Sys2Proof.Safety

open Sys2Proof.Machine

/-- Settles O25: per byte, the table entry is eight shift steps (`TABLE_eq_crcShifts`). -/
theorem crc8IsBitwiseOnEveryMessage : Obligations.Crc8IsBitwiseOnEveryMessage := by
  intro c m
  induction m generalizing c with
  | nil => rfl
  | cons b m ih =>
    calc crc8Incremental c (b :: m) = crc8Bitwise (TABLE (c ^^^ b)) m := ih _
      _ = crc8Bitwise c (b :: m) := by rw [TABLE_eq_crcShifts]; rfl

theorem crcShift_xor (a b : Byte) : crcShift (a ^^^ b) = crcShift a ^^^ crcShift b := by
  have hright (x y z : Byte) : x ^^^ y ^^^ z = x ^^^ z ^^^ y := by ac_rfl
  have hcancel (x y : Byte) : x ^^^ 0x07 ^^^ (y ^^^ 0x07) = x ^^^ y := by
    rw [BitVec.xor_assoc, BitVec.xor_comm y, ← BitVec.xor_assoc (0x07 : Byte), BitVec.xor_self, BitVec.zero_xor]
  simp only [crcShift, BitVec.getLsbD_xor, BitVec.shiftLeft_xor_distrib]
  cases a.getLsbD 7 <;> cases b.getLsbD 7
  · rfl
  · exact BitVec.xor_assoc _ _ _
  · exact hright _ _ _
  · exact (hcancel _ _).symm

theorem crcShifts_xor (n : Nat) (a b : Byte) : crcShifts n (a ^^^ b) = crcShifts n a ^^^ crcShifts n b := by
  induction n generalizing a b with
  | zero => rfl
  | succ n ih => rw [crcShifts, crcShift_xor, ih]; rfl

theorem TABLE_xor (a b : Byte) : TABLE (a ^^^ b) = TABLE a ^^^ TABLE b := by
  simp only [TABLE_eq_crcShifts, crcShifts_xor]

theorem TABLE_zero : TABLE 0x00 = 0x00 := rfl

/-- The two running values and the two messages can be added before or after the loop (R82). -/
theorem crc8Incremental_xor (c d : Byte) {m n : List Byte} (h : m.length = n.length) :
    crc8Incremental (c ^^^ d) (List.zipWith (fun a b => a ^^^ b) m n) = crc8Incremental c m ^^^ crc8Incremental d n := by
  induction m generalizing c d n with
  | nil => obtain rfl := List.length_eq_zero_iff.1 h.symm; rfl
  | cons a m ih =>
    obtain ⟨b, n, rfl⟩ := List.exists_cons_of_length_eq_add_one h.symm
    have hstep : TABLE (c ^^^ d ^^^ (a ^^^ b)) = TABLE (c ^^^ a) ^^^ TABLE (d ^^^ b) := by
      rw [← TABLE_xor]
      congr 1
      ac_rfl
    calc crc8Incremental (TABLE (c ^^^ d ^^^ (a ^^^ b))) (List.zipWith (fun a b => a ^^^ b) m n)
        = crc8Incremental (TABLE (c ^^^ a)) m ^^^ crc8Incremental (TABLE (d ^^^ b)) n := by
          rw [hstep, ih _ _ (Nat.succ.inj h)]

theorem zipWith_zeros_xor (m : List Byte) : List.zipWith (fun a b => a ^^^ b) (List.replicate m.length 0x00) m = m := by
  induction m with
  | nil => rfl
  | cons b m ih => exact congrArg₂ List.cons BitVec.zero_xor ih

theorem crc8_zeros (n : Nat) : crc8 (List.replicate n 0x00) = 0x00 := by
  induction n with
  | zero => rfl
  | succ n ih => exact ih

/-- Only 0x00 has the entry 0x00, so by linearity no two bytes have the same entry. -/
theorem TABLE_injective {a b : Byte} (h : TABLE a = TABLE b) : a = b := by
  have hkernel : ∀ d : Byte, TABLE d = 0x00 → d = 0x00 := by decide +kernel
  have hxor : TABLE (a ^^^ b) = 0x00 := by rw [TABLE_xor, h, BitVec.xor_self]; rfl
  exact BitVec.xor_eq_zero_iff.1 (hkernel _ hxor)

/-- Different running values stay different over the same bytes. -/
theorem crc8Incremental_injective {c d : Byte} {m : List Byte} (h : crc8Incremental c m = crc8Incremental d m) : c = d := by
  induction m generalizing c d with
  | nil => exact h
  | cons b m ih => exact (BitVec.xor_left_inj b).1 (TABLE_injective (ih h))

/-- Settles O27. Linearity is `crc8Incremental_xor`, whose base is the linearity of one shift step; the bijection is `TABLE_injective`;
the XOR trees are checked on the 256 entries. -/
theorem crcArithmeticLaws : Obligations.CrcArithmeticLaws := by
  refine ⟨TABLE_xor, fun m n => crc8Incremental_xor 0x00 0x00, fun c m => ?_, fun m => ?_, fun n m => ?_,
    by decide +kernel, fun a b => TABLE_injective, fun m n a b hab h => hab ?_⟩
  · have hc : c ^^^ 0x00 = c := BitVec.xor_zero
    have h := crc8Incremental_xor c 0x00 (List.length_replicate (n := m.length) (a := (0x00 : Byte)))
    rwa [zipWith_zeros_xor, hc] at h
  · have happend : crc8 (m ++ [crc8 m]) = TABLE (crc8 m ^^^ crc8 m) := crc8Incremental_append 0x00 m [crc8 m]
    rw [happend, BitVec.xor_self]; rfl
  · have happend : crc8 (List.replicate n 0 ++ m) = crc8Incremental (crc8 (List.replicate n 0)) m :=
      crc8Incremental_append 0x00 _ m
    rw [happend, crc8_zeros]; rfl
  · simp only [crc8, crc8Incremental_append] at h
    have hx := TABLE_injective (crc8Incremental_injective (m := n) h)
    exact (BitVec.xor_right_inj _).1 hx

/-- Settles O29: port C performs the operation, and `crcWrite_eq` says what it writes; CRC.CLR is the same write of 0x00. -/
theorem crcLdEffect : Obligations.CrcLdEffect :=
  ⟨fun _ => rfl, fun v s hp => (exec_of_port_C (.crcLd v) hp).trans (congrArg _ (crcWrite_eq v s)),
    fun _ hp => (exec_of_port_C (.crcLd 0x00) hp).trans (exec_of_port_C .crcClr hp).symm⟩

/-- Settles O30: port C performs the write of the table entry; the entry of CRC ^ CRC = 0x00 is 0x00. -/
theorem crcUpdEffect : Obligations.CrcUpdEffect := by
  have hexec (b : Byte) (s : State) (hp : s.port = .C) :
      exec (.crcUpd b) s = .next { s with crc := TABLE (s.crc ^^^ b), rsp := some ⟨.ok, 0, []⟩ } :=
    (exec_of_port_C (.crcUpd b) hp).trans (congrArg _ (crcWrite_eq _ s))
  refine ⟨fun _ => rfl, hexec, fun s hp => ?_, rfl⟩
  rw [hexec s.crc s hp, BitVec.xor_self]
  rfl

/-- What an operation makes of the running value `c` (R11). -/
def crcAfter (i : Instr) (c : Byte) : Byte :=
  match i with
  | .crcClr => 0x00
  | .crcLd v => v
  | .crcUpd b => TABLE (c ^^^ b)
  | _ => c

theorem effect_crc (i : Instr) (s : State) : (effect i s).crc = crcAfter i s.crc := by
  cases i with
  | rbPush v => exact rawPush_crc .full v s
  | rbPushd v => exact rawPush_crc .ok v s
  | rbPop => simp only [effect, rawPop, crcAfter]; split_ifs <;> rfl
  | rbPeek j => rw [effect_of_isRead (.inl ⟨j, rfl⟩)]; rfl
  | rbPeekf k => rw [effect_of_isRead (.inr (.inl ⟨k, rfl⟩))]; rfl
  | crcClr | crcLd | crcUpd | crcRd | rbLen | csEnter | csExit => rfl

theorem crcAfter_of_not_isCrc {i : Instr} (h : isCrc i = false) (c : Byte) : crcAfter i c = c := by
  cases i with
  | crcClr | crcLd | crcUpd | crcRd => cases h
  | rbPush | rbPushd | rbPop | rbPeek | rbPeekf | rbLen | csEnter | csExit => rfl

/-- Who writes CRC, and with what (R11). -/
theorem crcAfter_cases (i : Instr) (c : Byte) :
    crcAfter i c = c ∨ (i = .crcClr ∧ crcAfter i c = 0x00) ∨ i = .crcLd (crcAfter i c) ∨
      ∃ b, i = .crcUpd b ∧ crcAfter i c = TABLE (c ^^^ b) := by
  cases i with
  | crcClr => exact .inr (.inl ⟨rfl, rfl⟩)
  | crcLd v => exact .inr (.inr (.inl rfl))
  | crcUpd b => exact .inr (.inr (.inr ⟨b, rfl, rfl⟩))
  | crcRd | rbPush | rbPushd | rbPop | rbPeek | rbPeekf | rbLen | csEnter | csExit => exact .inl rfl

/-- Settles O33: an admitted operation leaves `crcAfter i` of the old value, a refused one the old value. -/
theorem onlyCrcWritesTouchCrc : Obligations.OnlyCrcWritesTouchCrc := by
  intro i s t h
  rcases exec_cases h with ⟨-, rfl⟩ | ⟨-, rfl⟩
  · rw [effect_crc]
    exact ⟨fun hi => crcAfter_of_not_isCrc hi s.crc, crcAfter_cases i s.crc⟩
  · exact ⟨fun _ => rfl, .inl rfl⟩

/-- The operations that can write or read CRC: those of unit CRC on a port that admits them. -/
abbrev touchesCrc (o : Port × Instr) : Bool := admits o.1 o.2 && isCrc o.2

theorem performOn_crc (o : Port × Instr) (s : State) :
    (performOn o.1 o.2 s).crc = if touchesCrc o then crcAfter o.2 s.crc else s.crc := by
  obtain ⟨p, i⟩ := o
  cases ha : admits p i with
  | false => simp [performOn, exec_of_not (s := s.setPort p) ha, stateAfter, ha]
  | true =>
    have hcrc : (performOn p i s).crc = crcAfter i s.crc := by
      rw [performOn, exec_of (s := s.setPort p) ha]
      exact effect_crc i (s.setPort p)
    cases hi : isCrc i with
    | true => simp [hcrc, ha, hi]
    | false => simp [hcrc, crcAfter_of_not_isCrc hi, hi]

/-- After any operations on both ports CRC is what those that touch it have made of it, in their order (R81). -/
theorem performAll_crc (ops : List (Port × Instr)) (s : State) :
    (performAll ops s).crc = (ops.filter touchesCrc).foldl (fun c o => crcAfter o.2 c) s.crc := by
  induction ops generalizing s with
  | nil => rfl
  | cons o ops ih =>
    have hcons : performAll (o :: ops) s = performAll ops (performOn o.1 o.2 s) := rfl
    rw [hcons, ih, performOn_crc, List.filter_cons]
    split_ifs <;> rfl

/-- The updates of a message, folded, are the loop of R70. -/
theorem foldl_crcAfter_updates (c : Byte) (m : List Byte) :
    ((m.map Instr.crcUpd).map fun i => (Port.C, i)).foldl (fun c o => crcAfter o.2 c) c = crc8Incremental c m := by
  simp only [crc8Incremental_eq_foldl, List.foldl_map]
  rfl

/-- Operations whose CRC part is a first operation, the updates of `m` and a final CRC.RD answer the CRC of `m` from the value the
first operation leaves (R81). -/
theorem performAll_stream {first : Instr} {m : List Byte} {ops : List (Port × Instr)}
    (h : (ops ++ [(Port.C, Instr.crcRd)]).filter touchesCrc =
      (first :: m.map .crcUpd ++ [Instr.crcRd]).map (fun i => (Port.C, i))) (s : State) :
    (performAll (ops ++ [(Port.C, Instr.crcRd)]) s).rsp =
      some ⟨.ok, (crc8Incremental (crcAfter first s.crc) m).setWidth 16, []⟩ := by
  have hops : ops.filter touchesCrc = (Port.C, first) :: (m.map Instr.crcUpd).map fun i => (Port.C, i) := by
    rw [List.filter_append, List.map_append] at h
    exact List.append_cancel_right h
  have hcrc : (performAll ops s).crc = crc8Incremental (crcAfter first s.crc) m := by
    rw [performAll_crc, hops]
    exact foldl_crcAfter_updates _ m
  have hlast : performAll (ops ++ [(Port.C, Instr.crcRd)]) s = issue .crcRd (performAll ops s) :=
    List.foldl_append
  rw [hlast, issue_eq, ← hcrc]
  rfl

/-- Settles O34: `performAll_stream` from CRC.CLR, which leaves 0x00, and from CRC.LD c, which leaves c. -/
theorem streamingComputesCrc8 : Obligations.StreamingComputesCrc8 :=
  ⟨fun _ _ s h => performAll_stream (first := .crcClr) h s, fun c _ _ s h => performAll_stream (first := .crcLd c) h s⟩

end Sys2Proof.Safety
end

section
/-! The CRC as a remainder: modulo G(x) a shift step is multiplication by x, so a byte is consumed by multiplication by x^8 (R76). -/

namespace Sys2Proof.Safety

open Sys2Proof.Machine Polynomial

theorem generatorPoly_monic : generatorPoly.Monic := by
  unfold generatorPoly; monicity!

theorem degree_generatorPoly : generatorPoly.degree = 8 := by
  unfold generatorPoly; compute_degree!

theorem degree_bytePoly_lt (b : Byte) : (bytePoly b).degree < 8 := by
  refine mem_degreeLT.1 (Submodule.sum_mem _ fun j hj => ?_)
  split_ifs
  · rw [mem_degreeLT, degree_X_pow]
    exact_mod_cast Finset.mem_range.1 hj
  · exact Submodule.zero_mem _

theorem bytePoly_zero : bytePoly 0x00 = 0 := by simp [bytePoly]

/-- XOR of bytes is addition over GF(2). -/
theorem bytePoly_xor (a b : Byte) : bytePoly (a ^^^ b) = bytePoly a + bytePoly b := by
  rw [bytePoly, bytePoly, bytePoly, ← Finset.sum_add_distrib]
  refine Finset.sum_congr rfl fun j _ => ?_
  rw [BitVec.getLsbD_xor]
  cases a.getLsbD j <;> cases b.getLsbD j <;> simp [CharTwo.add_self_eq_zero]

/-- Multiplication by x is a shift, whose lost bit is the coefficient of x^8. -/
theorem bytePoly_mul_X (c : Byte) : bytePoly c * X = bytePoly (c <<< 1) + if c.getLsbD 7 then X ^ 8 else 0 := by
  have hzero : (c <<< 1).getLsbD 0 = false := by simp
  rw [bytePoly, bytePoly, Finset.sum_range_succ, Finset.sum_range_succ' _ 7, hzero, add_mul, Finset.sum_mul]
  simp only [Bool.false_eq_true, if_false, add_zero, ite_mul, zero_mul, ← pow_succ]
  congr 1
  refine Finset.sum_congr rfl fun j hj => ?_
  have hj := Finset.mem_range.1 hj
  have hbit : (c <<< 1).getLsbD (j + 1) = c.getLsbD j := by simp; omega
  rw [hbit]

theorem generatorPoly_eq : generatorPoly = X ^ 8 - bytePoly 0x07 := by
  have hseven : bytePoly 0x07 = X ^ 2 + X + 1 := by
    simp [bytePoly, Finset.sum_range_succ]
    ring
  rw [hseven, CharTwo.sub_eq_add, generatorPoly]
  ring

/-- A polynomial modulo G(x). -/
noncomputable abbrev modG : Polynomial (ZMod 2) →+* AdjoinRoot generatorPoly := AdjoinRoot.mk generatorPoly

theorem modG_X_pow_eight : modG (X ^ 8) = modG (bytePoly 0x07) :=
  AdjoinRoot.mk_eq_mk.2 (generatorPoly_eq ▸ dvd_rfl)

/-- A shift step multiplies by x modulo G(x) (R76). -/
theorem modG_crcShift (c : Byte) : modG (bytePoly (crcShift c)) = modG (bytePoly c) * modG X := by
  rw [← map_mul, bytePoly_mul_X, crcShift]
  split_ifs
  · rw [bytePoly_xor, map_add, map_add, modG_X_pow_eight]
  · rw [add_zero]

theorem modG_crcShifts (n : Nat) (c : Byte) : modG (bytePoly (crcShifts n c)) = modG (bytePoly c) * modG X ^ n := by
  induction n generalizing c with
  | zero => rw [pow_zero, mul_one]; rfl
  | succ n ih => rw [crcShifts, ih, modG_crcShift, pow_succ', mul_assoc]

/-- The loop of R70 modulo G(x): the running value is shifted past the message, the message past one byte. -/
theorem modG_crc8Incremental (c : Byte) (m : List Byte) :
    modG (bytePoly (crc8Incremental c m)) = modG (bytePoly c) * modG X ^ (8 * m.length) + modG (messagePoly m) * modG X ^ 8 := by
  induction m generalizing c with
  | nil => simp [crc8Incremental, messagePoly]
  | cons b m ih =>
    calc modG (bytePoly (crc8Incremental (TABLE (c ^^^ b)) m))
        = (modG (bytePoly c) + modG (bytePoly b)) * modG X ^ 8 * modG X ^ (8 * m.length) + modG (messagePoly m) * modG X ^ 8 := by
          rw [ih, TABLE_eq_crcShifts, modG_crcShifts, bytePoly_xor, map_add]
      _ = modG (bytePoly c) * modG X ^ (8 * (b :: m).length) + modG (messagePoly (b :: m)) * modG X ^ 8 := by
          rw [messagePoly, map_add, map_mul, map_pow, List.length_cons]
          ring

/-- Settles O26: `crc8 m` and `M(x) x^8` agree modulo G(x) by `modG_crc8Incremental` from 0x00, and a byte is its own remainder. -/
theorem crc8IsPolynomialRemainder : Obligations.Crc8IsPolynomialRemainder := by
  intro m
  have hmod : modG (bytePoly (crc8 m)) = modG (messagePoly m * X ^ 8) := by
    rw [crc8, modG_crc8Incremental, bytePoly_zero, map_zero, zero_mul, zero_add, map_mul, map_pow]
  have hself : bytePoly (crc8 m) %ₘ generatorPoly = bytePoly (crc8 m) :=
    (modByMonic_eq_self_iff generatorPoly_monic).2 (degree_generatorPoly ▸ degree_bytePoly_lt _)
  rw [← hself]
  exact modByMonic_eq_of_dvd_sub generatorPoly_monic (AdjoinRoot.mk_eq_mk.1 hmod)

end Sys2Proof.Safety
end

section
/-! The peeks, and what the ring-buffer operations do on the queue view (R17, R99, R101, R104, R158). -/

namespace Sys2Proof.Safety

open Sys2Proof.Machine

/-- A peek inside the queue on port C (R99). -/
theorem exec_rbPeek_of_lt {j : Half} {s : State} (hp : s.port = .C) (h : j.toNat < s.count.toNat) :
    exec (.rbPeek j) s = .next (succeed (zextByte (memRead s (ringIndex s j.toNat))) s) :=
  (exec_of_port_C (.rbPeek j) hp).trans (congrArg _ (rawPeek_of_lt h))

/-- A peek beyond the queue on port C (R99). -/
theorem exec_rbPeek_of_le {j : Half} {s : State} (hp : s.port = .C) (h : s.count.toNat ≤ j.toNat) :
    exec (.rbPeek j) s = .next (fail .range s) :=
  (exec_of_port_C (.rbPeek j) hp).trans (congrArg _ (rawPeek_of_not_lt h.not_gt))

/-- A peek-fill of more bytes than are buffered on port C (R101). -/
theorem exec_rbPeekf_of_lt {k : Half} {s : State} (hp : s.port = .C) (h : s.count.toNat < k.toNat) :
    exec (.rbPeekf k) s = .next (fail .range s) :=
  (exec_of_port_C (.rbPeekf k) hp).trans (congrArg _ (rawPeekf_of_not_le h.not_ge))

/-- Settles O38: the two branches of the raw peek; the cell read is the queue's byte by `queue_getElem?`. -/
theorem rbPeekEffect : Obligations.RbPeekEffect :=
  ⟨fun _ => rfl, fun _ s hp h => ⟨exec_rbPeek_of_lt hp h, queue_getElem? s h⟩, fun _ _ hp h => exec_rbPeek_of_le hp h⟩

theorem rawPeekf_of_le_eq_take {k : Half} {s : State} (h : k.toNat ≤ s.count.toNat) :
    rawPeekf k s = respond .ok k ((queue s).take k.toNat) s := by
  rw [rawPeekf_of_le h, oldest_eq_take s h]

/-- Settles O39: the burst is the front of the queue, whose byte at `j` is what a peek at `j` reads. -/
theorem rbPeekfEffect : Obligations.RbPeekfEffect := by
  refine ⟨fun _ => rfl, fun k s hp h => ⟨?_, fun j hj => ?_⟩, fun _ _ hp h => exec_rbPeekf_of_lt hp h⟩
  · exact (exec_of_port_C (.rbPeekf k) hp).trans (congrArg _ (rawPeekf_of_le_eq_take h))
  · have hbyte : ((queue s).take k.toNat)[j]? = some (memRead s (ringIndex s j)) := by
      rw [List.getElem?_take_of_lt hj, queue_getElem? s (hj.trans_le h)]
    have hj' : (BitVec.ofNat 16 j).toNat = j := Nat.mod_eq_of_lt (hj.trans k.isLt)
    have hpeek := exec_rbPeek_of_lt (j := BitVec.ofNat 16 j) hp (by rw [hj']; exact hj.trans_le h)
    rw [hj'] at hpeek
    exact ⟨hbyte, _, hbyte, hpeek⟩

/-- Settles O52: COUNT <= N, so an operand beyond N is beyond COUNT, and RB.LEN answers COUNT. -/
theorem oversizedRequestsFail : Obligations.OversizedRequestsFail := by
  intro s k hinv hp
  exact ⟨fun hk => exec_rbPeekf_of_lt hp (hinv.count_le.trans_lt hk), fun hk => exec_rbPeek_of_le hp (hinv.count_le.trans hk),
    _, _, exec_of_port_C .rbLen hp, rfl, hinv.count_le⟩

/-- An outcome on the queue view: the view of the state after and the response written. -/
def Shows (t : State) (o : QState × Response) : Prop := view t = o.1 ∧ t.rsp = some o.2

/-- The queue view, put together from CRC, queue and IE (R17). -/
theorem view_eq_of_queue {t : State} {q : List Byte} {c : Byte} {b : Bool} (hc : t.crc = c) (hq : queue t = q) (hi : t.ie = b) :
    view t = ⟨c, q, b⟩ := by rw [view, hc, hq, hi]

/-- A raw push shows what its two branches show on the queue (R91). -/
theorem shows_rawPush {st : Status} {v : Byte} {s : State} {o : QState × Response}
    (hroom : (queue s).length < s.N → o = (⟨s.crc, queue s ++ [v], s.ie⟩, ⟨.ok, 0, []⟩))
    (hfull : ¬ (queue s).length < s.N → o = (view s, failed st)) : Shows (rawPush st v s) o := by
  rw [queue_length] at hroom hfull
  by_cases h : s.count.toNat < s.N
  · rw [hroom h, rawPush_of_lt st v h]
    exact ⟨view_eq_of_queue rfl (queue_append s v h) rfl, rfl⟩
  · rw [hfull h, rawPush_of_not_lt st v h]
    exact ⟨rfl, rfl⟩

theorem shows_rawPop (s : State) (hf : s.first.toNat < s.N) : Shows (rawPop s) ((view s).perform s.N .rbPop) := by
  by_cases h : 0 < s.count.toNat
  · have hq := queue_eq_cons s hf h
    rw [rawPop_of_pos h]
    simp only [QState.perform, view, hq]
    exact ⟨rfl, rfl⟩
  · have hq : queue s = [] := List.length_eq_zero_iff.1 (by rw [queue_length]; omega)
    rw [rawPop_of_not_pos h]
    simp only [QState.perform, view, hq]
    exact ⟨view_eq_of_queue rfl hq rfl, rfl⟩

theorem shows_rawPeek (j : Half) (s : State) : Shows (rawPeek j s) ((view s).perform s.N (.rbPeek j)) := by
  by_cases h : j.toNat < s.count.toNat
  · rw [rawPeek_of_lt h]
    simp only [QState.perform, view, queue_getElem? s h]
    exact ⟨rfl, rfl⟩
  · rw [rawPeek_of_not_lt h]
    simp only [QState.perform, view, queue_getElem?_none s (not_lt.1 h)]
    exact ⟨rfl, rfl⟩

theorem shows_rawPeekf (k : Half) (s : State) : Shows (rawPeekf k s) ((view s).perform s.N (.rbPeekf k)) := by
  simp only [QState.perform, view, queue_length]
  by_cases h : k.toNat ≤ s.count.toNat
  · rw [rawPeekf_of_le_eq_take h, if_pos h]
    exact ⟨rfl, rfl⟩
  · rw [rawPeekf_of_not_le h, if_neg h]
    exact ⟨rfl, rfl⟩

/-- Every effect does and answers on the queue view what the queue machine does and answers (R17, R104). -/
theorem shows_effect (i : Instr) (s : State) (hf : s.first.toNat < s.N) : Shows (effect i s) ((view s).perform s.N i) := by
  cases i with
  | rbPush v => exact shows_rawPush (fun h => if_pos h) (fun h => if_neg h)
  | rbPushd v => exact shows_rawPush (fun h => if_pos h) (fun h => if_neg h)
  | rbPop => exact shows_rawPop s hf
  | rbPeek j => exact shows_rawPeek j s
  | rbPeekf k => exact shows_rawPeekf k s
  | rbLen =>
    have hlen : BitVec.ofNat 16 (queue s).length = s.count := by rw [queue_length, BitVec.ofNat_toNat, BitVec.setWidth_eq]
    exact ⟨rfl, by simp only [QState.perform, view, hlen]; rfl⟩
  | crcClr | crcLd | crcUpd | crcRd | csEnter | csExit => exact ⟨rfl, rfl⟩

/-- An operation on either port refines the queue machine, whatever COUNT is. -/
theorem exec_refines (i : Instr) (s : State) (hf : s.first.toNat < s.N) :
    ∃ t, exec i s = .next t ∧ Shows t ((view s).exec s.N s.port i) ∧ SameFrame s t := by
  cases ha : admits s.port i with
  | true =>
    refine ⟨_, exec_of ha, ?_, sameFrame_effect i s⟩
    rw [QState.exec, if_pos ha]
    exact shows_effect i s hf
  | false =>
    refine ⟨_, exec_of_not ha, ?_, sameFrame_setRsp s _⟩
    rw [QState.exec, ha]
    exact ⟨rfl, rfl⟩

/-- Settles O44, by `exec_refines`. -/
theorem queueMachineRefined : Obligations.QueueMachineRefined := by
  intro i s hf _
  obtain ⟨t, ht, ⟨hview, hrsp⟩, frame⟩ := exec_refines i s hf
  exact ⟨t, ht, hview, hrsp, frame⟩

end Sys2Proof.Safety
end

section
/-! What cannot be observed: the layout of the ring and the bytes of unwritten cells (R17, R20). -/

namespace Sys2Proof.Safety

open Sys2Proof.Machine

variable {s t : State}

/-- What the coming turn asks for depends on nothing that R17 hides. -/
theorem request_of_sameView (h : SameView s t) : request t = request s := by
  obtain ⟨-, -, hie⟩ := QState.mk.inj h.view
  unfold request
  rw [h.turns, h.cQueue, h.pQueue, h.params, hie]

theorem sameView_advance (h : SameView s t) : SameView (advance s) (advance t) := by
  unfold advance
  rw [request_of_sameView h, h.turns, h.cQueue, h.pQueue]
  cases request s with
  | nothing | reset => exact ⟨h.view, h.params, rfl, h.cQueue, h.pQueue, h.port, h.rsp⟩
  | command p w =>
    cases p with
    | C => exact ⟨h.view, h.params, rfl, rfl, h.pQueue, rfl, h.rsp⟩
    | P => exact ⟨h.view, h.params, rfl, h.cQueue, rfl, rfl, h.rsp⟩

theorem sameView_resetEvent (h : SameView s t) : SameView (resetEvent s) (resetEvent t) where
  view := congrArg (fun p : Parameters => QState.mk 0x00 [] p.ieReset) h.params
  params := h.params
  turns := h.turns
  cQueue := h.cQueue
  pQueue := h.pQueue
  port := h.port
  rsp := rfl

/-- Two states that show the same, reached within frames that agree, agree on all that R17 lets be seen. -/
theorem sameView_of_shows {s' t' : State} {o : QState × Response} (h : SameView s t) (hs : Shows s' o) (ht : Shows t' o)
    (fs : SameFrame s s') (ft : SameFrame t t') : SameView s' t' where
  view := ht.1.trans hs.1.symm
  params := by rw [ft.params, fs.params, h.params]
  turns := by rw [ft.turns, fs.turns, h.turns]
  cQueue := by rw [ft.cQueue, fs.cQueue, h.cQueue]
  pQueue := by rw [ft.pQueue, fs.pQueue, h.pQueue]
  port := by rw [ft.port, fs.port, h.port]
  rsp := ht.2.trans hs.2.symm

/-- A word performed in two states that agree is answered alike: both follow the one queue machine. -/
theorem sameView_perform {w : Word} {s' : State} (hs : s.first.toNat < s.N) (ht : t.first.toNat < t.N) (h : SameView s t)
    (hw : perform w s = .next s') : ∃ t', perform w t = .next t' ∧ SameView s' t' := by
  cases hd : decode w with
  | error e =>
    rw [perform_error s hd] at hw
    cases hw
    exact ⟨_, perform_error t hd, ⟨h.view, h.params, h.turns, h.cQueue, h.pQueue, h.port, rfl⟩⟩
  | ok i =>
    obtain ⟨u, hu, shows_s, frame_s⟩ := exec_refines i s hs
    obtain ⟨t', ht', shows_t, frame_t⟩ := exec_refines i t ht
    rw [perform_ok s hd, hu] at hw
    cases hw
    rw [h.view, h.port, State.N, h.params] at shows_t
    exact ⟨t', (perform_ok t hd).trans ht', sameView_of_shows h shows_s shows_t frame_s frame_t⟩

theorem sameView_step {s' : State} (hs : Invariant s) (ht : Invariant t) (h : SameView s t) (hstep : step s = .next s') :
    ∃ t', step t = .next t' ∧ SameView s' t' := by
  have hrequest := request_of_sameView h
  rcases step_cases hstep with ⟨hr, rfl⟩ | ⟨hr, rfl⟩ | ⟨p, w, hr, hp⟩
  · exact ⟨_, step_of_nothing t (hrequest.trans hr), sameView_advance h⟩
  · exact ⟨_, step_of_reset t (hrequest.trans hr), sameView_resetEvent (sameView_advance h)⟩
  · rw [step_of_command t (hrequest.trans hr)]
    exact sameView_perform (invariant_advance hs).first_lt (invariant_advance ht).first_lt (sameView_advance h) hp

/-- Settles O45, by induction on the length of the run: `sameView_step`, and the invariant is kept. -/
theorem layoutIsUnobservable : Obligations.LayoutIsUnobservable := by
  intro n
  induction n with
  | zero =>
    intro s t s' _ _ h hrun
    cases hrun
    exact ⟨t, rfl, h⟩
  | succ n ih =>
    intro s t s' hs ht h hrun
    obtain ⟨u, hu, hrun⟩ := run_succ_cases hrun
    obtain ⟨v, hv, huv⟩ := sameView_step hs ht h hu
    obtain ⟨t', ht', h'⟩ := ih u v s' (invariant_of_step hs hu) (invariant_of_step ht hv) huv hrun
    exact ⟨t', (run_succ t n hv).trans ht', h'⟩

/-- The oldest bytes are written bytes, whatever the free value is (R20). -/
theorem oldest_epoch (hs : Invariant s) (e : Nat) {k : Nat} (hk : k ≤ s.count.toNat) :
    oldest { s with epoch := e } k = oldest s k :=
  List.map_congr_left fun _ hj => hs.memRead_epoch e ((List.mem_range.1 hj).trans_le hk)

/-- In a state that meets the invariant no effect reads the free value: what is read lies in the window (R20). -/
theorem effect_epoch (i : Instr) (hs : Invariant s) (e : Nat) :
    effect i { s with epoch := e } = { effect i s with epoch := e } := by
  cases i with
  | rbPush v | rbPushd v => simp only [effect, rawPush]; split_ifs <;> rfl
  | rbPop =>
    simp only [effect, rawPop]
    split_ifs with h
    · have hread := hs.memRead_epoch e h
      rw [ringIndex_zero s hs.first_lt] at hread
      rw [hread]; rfl
    · rfl
  | rbPeek j =>
    simp only [effect, rawPeek]
    split_ifs with h
    · rw [← hs.memRead_epoch e h]; rfl
    · rfl
  | rbPeekf k =>
    simp only [effect, rawPeekf]
    split_ifs with h
    · rw [oldest_epoch hs e h]; rfl
    · rfl
  | crcClr | crcLd | crcUpd | crcRd | rbLen | csEnter | csExit => rfl

/-- Settles O46: an admitted operation by `effect_epoch`, a refused one reads nothing. -/
theorem unspecifiedBytesUnobservable : Obligations.UnspecifiedBytesUnobservable := by
  intro i s t e hs h
  rcases exec_cases h with ⟨ha, rfl⟩ | ⟨ha, rfl⟩
  · rw [exec_of (s := { s with epoch := e }) ha, effect_epoch i hs e]
  · exact exec_of_not (s := { s with epoch := e }) ha

/-- Settles O48: the lengths of the two sides of the conservation law. -/
theorem countIsPushesMinusPops : Obligations.CountIsPushesMinusPops := by
  intro n s hs hnr
  have h := congrArg List.length (history_queue_eq n hs hnr)
  simp only [List.length_append, queue_length] at h
  omega

/-- Settles O49: one step of the conservation law, with nothing popped. -/
theorem queueGrowsAtTailBetweenPops : Obligations.QueueGrowsAtTailBetweenPops := by
  intro s t hs hstep hr hpop
  have h := queue_step hs hstep hr
  rw [hpop, List.nil_append] at h
  exact ⟨acceptedPush s, h.symm⟩

end Sys2Proof.Safety
end

section
/-! RB.POPN and RB.DRAIN with the handler acting in the gaps: each round follows the queue, and the queue alone says what the rounds
take and leave (R63, R64, R155). -/

namespace Sys2Proof.Safety

open Sys2Proof.Machine

/-- `t` is reached from `s` with the invariant kept, the queue `q`, and the parameters and IE of `s`. -/
structure LeadsTo (s : State) (q : List Byte) (t : State) : Prop where
  invariant : Invariant t
  queue     : queue t = q
  params    : t.params = s.params
  ie        : t.ie = s.ie

theorem LeadsTo.trans {s t u : State} {q r : List Byte} (h : LeadsTo s q t) (h' : LeadsTo t r u) : LeadsTo s r u :=
  ⟨h'.invariant, h'.queue, h'.params.trans h.params, h'.ie.trans h.ie⟩

theorem leadsTo_rawPush {s : State} (hs : Invariant s) (st : Status) (v : Byte) :
    LeadsTo s (if (queue s).length < s.N then queue s ++ [v] else queue s) (rawPush st v s) where
  invariant := (ringEffect_rawPush st v s).invariant hs
  queue := by rw [queue_length]; exact queue_rawPush st v s
  params := (sameFrame_rawPush st v s).params
  ie := rawPush_ie s st v

/-- A handler action that is a push, on the queue (R93, R95). -/
theorem handleQueue_push {p : Parameters} {a : HandlerAction} {i : Instr} {v : Byte} (hd : decode (handlerWord p a) = .ok i)
    (hi : i = .rbPush v ∨ i = .rbPushd v) (q : List Byte) :
    handleQueue p true q a = if q.length < p.N then q ++ [v] else q := by
  rcases hi with rfl | rfl <;> simp [handleQueue, hd]

/-- A handler action that port P answers ILLEGAL, on the queue (R56, R58). -/
theorem handleQueue_refused {p : Parameters} {a : HandlerAction}
    (hn : ∀ i, decode (handlerWord p a) = .ok i → admits .P i = false) (q : List Byte) : handleQueue p true q a = q := by
  cases hd : decode (handlerWord p a) with
  | error e => simp [handleQueue, hd]
  | ok i =>
    have hi := hn i hd
    cases i with
    | rbPush | rbPushd => cases hi
    | _ => simp [handleQueue, hd]

theorem push_of_admits_P {i : Instr} (h : admits .P i = true) : ∃ v, i = .rbPush v ∨ i = .rbPushd v := by
  cases i with
  | rbPush v => exact ⟨v, .inl rfl⟩
  | rbPushd v => exact ⟨v, .inr rfl⟩
  | crcClr | crcLd | crcUpd | crcRd | rbPop | rbPeek | rbPeekf | rbLen | csEnter | csExit => cases h

/-- Every handler action does to the block what it does to the queue (R121, R135). -/
theorem leadsTo_handle {s : State} (hs : Invariant s) (a : HandlerAction) :
    LeadsTo s (handleQueue s.params s.ie (queue s) a) (handle a s) := by
  cases hie : s.ie with
  | false =>
    rw [handle_of_masked a hie, handleQueue_masked]
    exact ⟨hs, rfl, rfl, rfl⟩
  | true =>
    have hP : LeadsTo s (queue s) (s.setPort .P) := ⟨hs.congr rfl rfl rfl rfl, rfl, rfl, rfl⟩
    obtain ⟨t, ht⟩ := perform_eq_next (handlerWord s.params a) (s.setPort .P)
    have hhandle : handle a s = t := by rw [handle, if_pos hie, ht]; rfl
    rw [hhandle]
    rcases perform_cases ht with ⟨i, hd, ha, rfl⟩ | ⟨hn, rfl⟩
    · obtain ⟨v, hi⟩ := push_of_admits_P ha
      rw [handleQueue_push hd hi]
      rcases hi with rfl | rfl
      · exact hP.trans (leadsTo_rawPush hP.invariant .full v)
      · exact hP.trans (leadsTo_rawPush hP.invariant .ok v)
    · rw [handleQueue_refused hn]
      exact ⟨hP.invariant.congr rfl rfl rfl rfl, rfl, rfl, rfl⟩

theorem leadsTo_handleAll {s : State} (hs : Invariant s) (as : List HandlerAction) :
    LeadsTo s (as.foldl (handleQueue s.params s.ie) (queue s)) (handleAll as s) := by
  induction as generalizing s with
  | nil => exact ⟨hs, rfl, rfl, rfl⟩
  | cons a as ih =>
    have ha := leadsTo_handle hs a
    have has := ih ha.invariant
    rw [ha.queue, ha.params, ha.ie] at has
    exact ha.trans has

/-- A round that finds the queue empty ends the loop with the answer EMPTY (R63, R64). -/
theorem popN_cons_of_empty {as : List HandlerAction} {s : State} (rest : List (List HandlerAction))
    (h : queue (handleAll as s) = []) : popN (as :: rest) s = ([], fail .empty ((handleAll as s).setPort .C)) := by
  have hcount : ¬ 0 < ((handleAll as s).setPort .C).count.toNat := by
    rw [← queue_length]
    exact (congrArg List.length h).not_gt
  have hpop : issue .rbPop (handleAll as s) = fail .empty ((handleAll as s).setPort .C) :=
    (issue_eq _ _).trans (rawPop_of_not_pos hcount)
  rw [popN, hpop]
  rfl

/-- A round that finds a byte takes it and goes on from the rest (R63). -/
theorem popN_cons_of_cons {as : List HandlerAction} {s : State} {b : Byte} {q : List Byte} (rest : List (List HandlerAction))
    (hu : Invariant (handleAll as s)) (h : queue (handleAll as s) = b :: q) :
    ∃ t, LeadsTo (handleAll as s) q t ∧ popN (as :: rest) s = (b :: (popN rest t).1, (popN rest t).2) := by
  have hpos : 0 < ((handleAll as s).setPort .C).count.toNat := by
    rw [State.setPort_count, ← queue_length, h]
    exact Nat.succ_pos _
  obtain ⟨hb, hq⟩ := List.cons.inj ((queue_eq_cons (handleAll as s) hu.first_lt hpos).symm.trans h)
  have hpop : issue .rbPop (handleAll as s) = succeed (zextByte b) ((removed (handleAll as s)).setPort .C) := by
    rw [← hb]
    exact (issue_eq _ _).trans (rawPop_of_pos hpos)
  refine ⟨issue .rbPop (handleAll as s), ?_, ?_⟩
  · rw [hpop]
    exact ⟨(hu.removed hpos).congr rfl rfl rfl rfl, hq, rfl, rfl⟩
  · rw [popN, hpop]
    simp only [succeed_rsp, setWidth_zextByte]

/-- What a loop of pops takes and leaves is what the drain takes and leaves on the queue, and it falls short only at EMPTY (R64). -/
theorem popN_follows_queue {s : State} (hs : Invariant s) (as : List (List HandlerAction)) :
    (popN as s).1 = (drainQueue s.params s.ie as (queue s)).1 ∧
    LeadsTo s (drainQueue s.params s.ie as (queue s)).2 (popN as s).2 ∧
    ((popN as s).1.length < as.length → queue (popN as s).2 = [] ∧ (popN as s).2.rsp = some ⟨.empty, 0, []⟩) := by
  induction as generalizing s with
  | nil => exact ⟨rfl, ⟨hs, rfl, rfl, rfl⟩, fun h => absurd h (Nat.not_lt_zero _)⟩
  | cons a as ih =>
    have hu := leadsTo_handleAll hs a
    cases hq : queue (handleAll a s) with
    | nil =>
      rw [popN_cons_of_empty as hq, drainQueue_cons_of_empty as (hu.queue.symm.trans hq)]
      exact ⟨rfl, ⟨hu.invariant.congr rfl rfl rfl rfl, hq, hu.params, hu.ie⟩, fun _ => ⟨hq, rfl⟩⟩
    | cons b q =>
      obtain ⟨t, ht, hpop⟩ := popN_cons_of_cons as hu.invariant hq
      obtain ⟨htaken, hleft, hshort⟩ := ih ht.invariant
      rw [ht.queue, ht.params, ht.ie, hu.params, hu.ie] at htaken hleft
      rw [hpop, drainQueue_cons_of_cons as (hu.queue.symm.trans hq)]
      exact ⟨congrArg (b :: ·) htaken, (hu.trans ht).trans hleft, fun h => hshort (Nat.lt_of_succ_lt_succ h)⟩

variable (p : Parameters) (ie : Bool)

/-- A handler action only lets the queue grow at its tail (R155). -/
theorem prefix_handleQueue (q : List Byte) (a : HandlerAction) : q <+: handleQueue p ie q a := by
  cases ie with
  | false => rw [handleQueue_masked]
  | true =>
    cases hd : decode (handlerWord p a) with
    | error e => rw [handleQueue_refused fun i hi => by rw [hd] at hi; cases hi]
    | ok i =>
      cases ha : admits .P i with
      | false => rw [handleQueue_refused fun j hj => by rw [hd] at hj; cases hj; exact ha]
      | true =>
        obtain ⟨v, hi⟩ := push_of_admits_P ha
        rw [handleQueue_push hd hi]
        split_ifs
        · exact List.prefix_append q [v]
        · exact List.prefix_rfl

theorem prefix_handleQueue_foldl (q : List Byte) (as : List HandlerAction) : q <+: as.foldl (handleQueue p ie) q := by
  induction as generalizing q with
  | nil => exact List.prefix_rfl
  | cons a as ih => exact (prefix_handleQueue p ie q a).trans (ih _)

/-- A drain of no more bytes than are buffered takes them, and what stood behind them stays at the head (R104 item 5). -/
theorem drainQueue_of_le {as : List (List HandlerAction)} {q : List Byte} (h : as.length ≤ q.length) :
    (drainQueue p ie as q).1 = q.take as.length ∧ q.drop as.length <+: (drainQueue p ie as q).2 := by
  induction as generalizing q with
  | nil => exact ⟨rfl, List.prefix_rfl⟩
  | cons a as ih =>
    obtain ⟨b, q, rfl⟩ := List.exists_cons_of_length_pos (Nat.zero_lt_of_lt h)
    have h := Nat.le_of_succ_le_succ h
    obtain ⟨added, hadded⟩ := prefix_handleQueue_foldl p ie (b :: q) a
    obtain ⟨htaken, hleft⟩ := ih (q := q ++ added) (h.trans (by simp))
    rw [drainQueue_cons_of_cons as hadded.symm]
    rw [List.take_append_of_le_length h] at htaken
    rw [List.drop_append_of_le_length h] at hleft
    exact ⟨congrArg (b :: ·) htaken, (List.prefix_append _ _).trans hleft⟩

theorem drainQueue_length_le (as : List (List HandlerAction)) (q : List Byte) : (drainQueue p ie as q).1.length ≤ as.length := by
  induction as generalizing q with
  | nil => exact Nat.le_refl 0
  | cons a as ih =>
    cases hq : a.foldl (handleQueue p ie) q with
    | nil => rw [drainQueue_cons_of_empty as hq]; exact Nat.zero_le _
    | cons b q' => rw [drainQueue_cons_of_cons as hq]; exact Nat.succ_le_succ (ih q')

/-- A drain takes at least what is buffered at its start, up to its bound (R64). -/
theorem le_drainQueue_length (as : List (List HandlerAction)) (q : List Byte) :
    min as.length q.length ≤ (drainQueue p ie as q).1.length := by
  induction as generalizing q with
  | nil => exact Nat.min_le_left _ _
  | cons a as ih =>
    have hle := (prefix_handleQueue_foldl p ie q a).length_le
    cases hq : a.foldl (handleQueue p ie) q with
    | nil =>
      rw [hq] at hle
      exact (Nat.min_le_right _ _).trans (hle.trans (Nat.zero_le _))
    | cons b q' =>
      have := ih q'
      rw [hq] at hle
      rw [drainQueue_cons_of_cons as hq]
      simp only [List.length_cons] at hle ⊢
      omega

/-- With a handler that does not act the drain splits the queue at its bound (R64). -/
theorem drainQueue_quiet (m : Nat) (q : List Byte) : drainQueue p ie (List.replicate m []) q = (q.take m, q.drop m) := by
  induction m generalizing q with
  | zero => rfl
  | succ m ih =>
    rw [List.replicate_succ]
    cases q with
    | nil => exact drainQueue_cons_of_empty _ rfl
    | cons b q => rw [drainQueue_cons_of_cons (q' := q) _ rfl, ih]; rfl

/-- Settles O50: on the queue by `drainQueue_of_le`, on the block by `popN_follows_queue`. -/
theorem popsReturnWhatPeekfShowed : Obligations.PopsReturnWhatPeekfShowed := by
  intro s as hs hle
  obtain ⟨htaken, hleft, -⟩ := popN_follows_queue hs as
  obtain ⟨htake, hdrop⟩ := drainQueue_of_le s.params s.ie (hle.trans_eq (queue_length s).symm)
  exact ⟨htaken.trans htake, hleft.queue ▸ hdrop, hleft.invariant⟩

/-- Settles O51: the drain follows the queue (`popN_follows_queue`), where the bounds and the split are read off. -/
theorem drainTakesAtMostM : Obligations.DrainTakesAtMostM := by
  refine ⟨fun s as hs => ?_, fun s m hs => ?_⟩
  · obtain ⟨htaken, hleft, hshort⟩ := popN_follows_queue hs as
    have hmin := le_drainQueue_length s.params s.ie as (queue s)
    have hmax := drainQueue_length_le s.params s.ie as (queue s)
    rw [queue_length, ← htaken] at hmin
    rw [← htaken] at hmax
    exact ⟨htaken, hleft.queue, hmin, hmax, hshort⟩
  · obtain ⟨htaken, hleft, -⟩ := popN_follows_queue hs (List.replicate m [])
    rw [drainQueue_quiet] at htaken hleft
    exact ⟨htaken, hleft.queue⟩

end Sys2Proof.Safety
end

section
/-! Nested critical sections: while IE is 0 the handler is held, and only the outermost CS.EXIT restores IE (R121 to R124). -/

namespace Sys2Proof.Safety

open Sys2Proof.Machine

/-- The state after the consumer's CS.ENTER (R122). -/
theorem issue_csEnter (s : State) : issue .csEnter s = succeed (zextFlag s.ie) ((s.setPort .C).setIe false) := issue_eq s .csEnter

theorem returned_csEnter (s : State) : returned (issue .csEnter s) = zextFlag s.ie := by rw [issue_csEnter]; rfl

/-- The flag a CS.EXIT is given is the IE its CS.ENTER found (R124). -/
theorem returnedFlag_csEnter (s : State) : returnedFlag (issue .csEnter s) = s.ie := by
  rw [returnedFlag, returned_csEnter]
  cases s.ie <;> rfl

theorem issue_csEnter_ie (s : State) : (issue .csEnter s).ie = false := by rw [issue_csEnter]; rfl

theorem issue_csExit_ie (b : Bool) (s : State) : (issue (.csExit b) s).ie = b := by rw [issue_eq]; rfl

theorem issue_ie_of_not_isCs {i : Instr} (h : isCs i = false) (s : State) : (issue i s).ie = s.ie := by
  rw [issue_eq]
  exact effect_ie_of_not_isCs h (s.setPort .C)

/-- What a section's body does where IE is 0: the handler never acts, so the run is that of the quiet body, and IE stays 0. -/
structure RunsMasked (body : Nest) (s : State) : Prop where
  masked   : ∀ b ∈ (body.run s).1, b = false
  returned : ∀ v ∈ (body.run s).2.1, v = 0
  quiet    : (body.quiet.run s).2.2 = (body.run s).2.2
  ie       : (body.run s).2.2.ie = false

theorem runsMasked {body : Nest} (hp : body.proper = true) {s : State} (hs : s.ie = false) : RunsMasked body s := by
  induction body generalizing s with
  | done as =>
    have hrun : (Nest.done as).run s = ([s.ie], [], s) := by rw [Nest.run, handleAll_of_masked as hs]
    constructor
    · rw [hrun]; exact List.forall_mem_singleton.2 hs
    · rw [hrun]; exact List.forall_mem_nil _
    · rw [hrun]; rfl
    · rw [hrun]; exact hs
  | op as i rest ih =>
    simp only [Nest.proper, Bool.and_eq_true, Bool.not_eq_true'] at hp
    have hrest := ih hp.2 ((issue_ie_of_not_isCs hp.1 s).trans hs)
    have hrun : (Nest.op as i rest).run s =
        (s.ie :: (rest.run (issue i s)).1, (rest.run (issue i s)).2.1, (rest.run (issue i s)).2.2) := by
      rw [Nest.run, handleAll_of_masked as hs]
    constructor
    · rw [hrun]; exact List.forall_mem_cons.2 ⟨hs, hrest.masked⟩
    · rw [hrun]; exact hrest.returned
    · rw [hrun]; exact hrest.quiet
    · rw [hrun]; exact hrest.ie
  | pair as inner rest ihInner ihRest =>
    simp only [Nest.proper, Bool.and_eq_true] at hp
    have hinner := ihInner hp.1 (issue_csEnter_ie s)
    have hflag : returnedFlag (issue .csEnter s) = false := (returnedFlag_csEnter s).trans hs
    have hrest := ihRest hp.2 (issue_csExit_ie false (inner.run (issue .csEnter s)).2.2)
    have hrun : (Nest.pair as inner rest).run s =
        (s.ie :: (inner.run (issue .csEnter s)).1 ++ (rest.run (issue (.csExit false) (inner.run (issue .csEnter s)).2.2)).1,
          returned (issue .csEnter s) :: (inner.run (issue .csEnter s)).2.1 ++
            (rest.run (issue (.csExit false) (inner.run (issue .csEnter s)).2.2)).2.1,
          (rest.run (issue (.csExit false) (inner.run (issue .csEnter s)).2.2)).2.2) := by
      rw [Nest.run, handleAll_of_masked as hs, hflag]
    have hquiet : ((Nest.pair as inner rest).quiet.run s).2.2 =
        (rest.quiet.run (issue (.csExit false) (inner.quiet.run (issue .csEnter s)).2.2)).2.2 := by
      rw [Nest.quiet, Nest.run, handleAll_of_masked [] hs, hflag]
    constructor
    · rw [hrun, List.cons_append]
      exact List.forall_mem_cons.2 ⟨hs, List.forall_mem_append.2 ⟨hinner.masked, hrest.masked⟩⟩
    · have hzero : returned (issue .csEnter s) = 0 := by rw [returned_csEnter, hs]; rfl
      rw [hrun, List.cons_append]
      exact List.forall_mem_cons.2 ⟨hzero, List.forall_mem_append.2 ⟨hinner.returned, hrest.returned⟩⟩
    · rw [hquiet, hinner.quiet, hrest.quiet, hrun]
    · rw [hrun]; exact hrest.ie

/-- Settles O56: the outer CS.ENTER leaves IE = 0, from which the body runs masked, and the outer CS.EXIT writes the flag the outer
CS.ENTER returned. -/
theorem criticalSectionsNest : Obligations.CriticalSectionsNest := by
  intro body s hp e r
  have hbody : RunsMasked body e := runsMasked hp (issue_csEnter_ie s)
  exact ⟨hbody.masked, hbody.returned, hbody.quiet, (issue_csExit_ie _ _).trans (returnedFlag_csEnter s)⟩

end Sys2Proof.Safety
end

section
/-! The checked run: it differs from the run only where a port does not accept the word presented on it (R55, R56). -/

namespace Sys2Proof.Safety

open Sys2Proof.Machine

variable {n : Nat} {s t : State} {p : Port} {w : Word}

/-- A command is answered with a status other than ILLEGAL exactly if its port accepts it. -/
theorem answered_iff_accepts (hr : request s = .command p w) (hs : step s = .next t) :
    (∃ r : Response, t.rsp = some r ∧ r.st ≠ .illegal) ↔ accepts p w = true := by
  obtain ⟨-, r, hrsp, hacc, hrej⟩ := step_rsp hr hs
  constructor
  · rintro ⟨r', hr', hst⟩
    rw [hrsp] at hr'
    cases hr'
    by_contra ha
    exact hst (by rw [hrej (Bool.eq_false_iff.2 ha)]; rfl)
  · exact fun ha => ⟨r, hrsp, hacc ha⟩

/-- What the coming turn presents, if it presents a command, is accepted by its port. -/
def RequestAccepted (s : State) : Prop := ∀ p w, request s = .command p w → accepts p w = true

theorem runChecked_succ_of_accepted (n : Nat) (h : RequestAccepted s) (hs : step s = .next t) :
    runChecked (n + 1) s = runChecked n t := by
  have hafter : stateAfter (step s) s = t := by rw [hs]; rfl
  cases hr : request s with
  | nothing => simp only [runChecked, hr, hafter]
  | reset => simp only [runChecked, hr, hafter]
  | command p w => simp only [runChecked, hr, hafter, h p w hr, if_true]

theorem runChecked_succ_of_refused (n : Nat) (hr : request s = .command p w) (ha : accepts p w = false) :
    runChecked (n + 1) s = .refused (.illegalCommand p w) := by
  simp [runChecked, hr, ha]

theorem requestAccepted_or_refused (s : State) :
    RequestAccepted s ∨ ∃ p w, request s = .command p w ∧ accepts p w = false := by
  by_cases h : RequestAccepted s
  · exact .inl h
  · simp only [RequestAccepted, not_forall, Bool.not_eq_true] at h
    obtain ⟨p, w, hr, ha⟩ := h
    exact .inr ⟨p, w, hr, ha⟩

/-- Every command that the next `n` steps perform is answered with a status other than ILLEGAL. -/
def AllAnswered (n : Nat) (s : State) : Prop :=
  ∀ k, k < n → ∀ u u' : State, core.run k s = .next u → ∀ (p : Port) (w : Word), request u = .command p w →
    step u = .next u' → ∃ r : Response, u'.rsp = some r ∧ r.st ≠ .illegal

theorem allAnswered_succ (hs : step s = .next t) : AllAnswered (n + 1) s ↔ RequestAccepted s ∧ AllAnswered n t := by
  constructor
  · refine fun h => ⟨fun p w hr => ?_, fun k hk u u' hu => ?_⟩
    · exact (answered_iff_accepts hr hs).1 (h 0 n.succ_pos s t (run_zero s) p w hr hs)
    · exact h (k + 1) (Nat.succ_lt_succ hk) u u' ((run_succ s k hs).trans hu)
  · rintro ⟨hacc, hrest⟩ k hk u u' hu p w hr hu'
    cases k with
    | zero =>
      cases hu
      exact (answered_iff_accepts hr hu').2 (hacc p w hr)
    | succ k => exact hrest k (Nat.lt_of_succ_lt_succ hk) u u' ((run_succ s k hs).symm.trans hu) p w hr hu'

/-- The checked run goes through exactly if the run does with every command answered. -/
theorem runChecked_eq_next_iff : runChecked n s = .next t ↔ core.run n s = .next t ∧ AllAnswered n s := by
  induction n generalizing s with
  | zero => exact ⟨fun h => ⟨h, fun _ hk => absurd hk (Nat.not_lt_zero _)⟩, And.left⟩
  | succ n ih =>
    obtain ⟨u, hu⟩ := step_eq_next s
    rw [allAnswered_succ hu, run_succ s n hu]
    rcases requestAccepted_or_refused s with h | ⟨p, w, hr, ha⟩
    · rw [runChecked_succ_of_accepted n h hu, ih, and_iff_right h]
    · rw [runChecked_succ_of_refused n hr ha]
      exact ⟨fun h => (nomatch h), fun h => absurd (h.2.1 p w hr) (by rw [ha]; decide)⟩

/-- A refused checked run names a command of the run that answered ILLEGAL. -/
theorem illegal_of_runChecked_refused (h : runChecked n s = .refused (.illegalCommand p w)) :
    ∃ (k : Nat) (u u' : State), k < n ∧ core.run k s = .next u ∧ request u = .command p w ∧ step u = .next u' ∧
      u'.rsp = some ⟨.illegal, 0, []⟩ := by
  induction n generalizing s with
  | zero => cases h
  | succ n ih =>
    obtain ⟨v, hv⟩ := step_eq_next s
    rcases requestAccepted_or_refused s with hacc | ⟨p', w', hr, ha⟩
    · rw [runChecked_succ_of_accepted n hacc hv] at h
      obtain ⟨k, u, u', hk, hrun, hu⟩ := ih h
      exact ⟨k + 1, u, u', Nat.succ_lt_succ hk, (run_succ s k hv).trans hrun, hu⟩
    · rw [runChecked_succ_of_refused n hr ha] at h
      cases h
      obtain ⟨-, r, hrsp, -, hrej⟩ := step_rsp hr hv
      exact ⟨0, s, v, n.succ_pos, run_zero s, hr, hv, hrsp.trans (congrArg some (hrej ha))⟩

/-- Settles O57, by `runChecked_eq_next_iff` and `illegal_of_runChecked_refused`. -/
theorem checkedRunRefusesIllegal : Obligations.CheckedRunRefusesIllegal :=
  ⟨fun _ _ _ => runChecked_eq_next_iff, fun _ _ _ _ => illegal_of_runChecked_refused⟩

end Sys2Proof.Safety
end
